-- ==== Sys2Proof/Word.lean ====
section
/-! DEFINITION. The machine's word: spec/00_scope.md R8 and R9 (8-bit unsigned data, 8 registers). -/

namespace Sys2Proof

/-- A register value, a memory byte, an address, the program counter, an immediate: always 8 bits, unsigned,
bit 0 the least significant (R9). -/
abbrev Byte := BitVec 8

/-- The index of a general register, 0..7 (R8 `NREG`, R13). -/
abbrev RegIndex := Fin 8

end Sys2Proof
end

