-- ==== Sys2Proof/Config.lean ====
section
/-! DEFINITION. The parameters of this hardware (spec/00_scope.md R8). The spec leaves no value of this machine
open to a free choice, so no constant here is opaque. -/

namespace Sys2Proof.Config

/-- R8 `MEMSIZE`: the number of memory bytes, addresses 0..255 (R29). -/
def memSize : Nat := 256

/-- The highest value `pc` can hold; an advance past it is PC_OVERFLOW (R18, R64). -/
def pcMax : Nat := 255

/-- R8 `SP_INDEX`: the register that PUSH, POP, CALL and RETURN use as stack pointer (R15). -/
def spIndex : RegIndex := 7

/-- R8 `SP_RESET` (R28). -/
def spReset : Byte := 0xF4

/-- R8 `PC_RESET` (R28). -/
def pcReset : Byte := 0x00

/-- What a memory byte holds that neither the image nor a store has written: zero (R28, R112 step 1). -/
def unwrittenByte : Byte := 0x00

end Sys2Proof.Config
end

