-- ==== Sys2Proof/Syntax.lean ====
section
/-! DEFINITION. The abstract syntax: the 20 opcodes of spec/opcode_table.json (R3), the four formats of
spec/30_encoding.md R47, and one constructor of `Instr` per opcode. -/

namespace Sys2Proof

/-- The 20 opcodes in scope (R3), in the order of R50's table. -/
inductive Opcode where
  | halt | loadImmediate | printReg
  | add | mul | mod | cmp | and | not | or | xor | shl | shr
  | push | pop
  | call | ret | jmp | jeq | jne
  deriving DecidableEq, Repr

/-- The instruction formats of R47. -/
inductive Format where
  /-- One byte, no operand. -/
  | f0
  /-- Two bytes: opcode, register index `a`. -/
  | f1r
  /-- Three bytes: opcode, register indices `a` and `b`. -/
  | f2rr
  /-- Three bytes: opcode, register index `a`, immediate `imm8`. -/
  | f2ri
  deriving DecidableEq, Repr

/-- An instruction. A register operand is the WHOLE operand byte, not masked to three bits (R48): a byte above 7 is
an instruction the machine decodes and then stops with BAD_REGISTER (R62), so it must be sayable here. -/
inductive Instr where
  | halt
  | loadImmediate (a imm : Byte)
  | printReg (a : Byte)
  | add (a b : Byte)
  | mul (a b : Byte)
  | mod (a b : Byte)
  | cmp (a b : Byte)
  | and (a b : Byte)
  | not (a : Byte)
  | or (a b : Byte)
  | xor (a b : Byte)
  | shl (a b : Byte)
  | shr (a b : Byte)
  | push (a : Byte)
  | pop (a : Byte)
  | call (a : Byte)
  | ret
  | jmp (a : Byte)
  | jeq (a : Byte)
  | jne (a : Byte)
  deriving DecidableEq, Repr

end Sys2Proof
end

