-- ==== Sys2Proof/Machine/State.lean ====
section
/-! DEFINITION. The whole state of the core, `(mem, x[0..7], pc, FL, status, out)` with the halt cause and its
information byte (spec/10_state.md R13-R28), and the state after reset. -/

namespace Sys2Proof.Machine

/-- R21: the two states of the fetch-decode-execute loop. -/
inductive RunStatus where
  | running
  /-- Terminal; only reset leaves it. -/
  | halted
  deriving DecidableEq, Repr

/-- R22: why the core entered HALTED. -/
inductive HaltCause where
  /-- Code 0, the value while RUNNING. -/
  | none
  /-- Code 1: the HALT instruction (R66). -/
  | halt
  /-- Code 2: the opcode byte is in no row of R50 (R61). -/
  | illegalOpcode
  /-- Code 3: a register operand above 7 (R62). -/
  | badRegister
  /-- Code 4: MOD with a divisor of 0 (R73). -/
  | divByZero
  /-- Code 5: a next pc or return address above 0xFF (R64, R87, R90, R91). -/
  | pcOverflow
  deriving DecidableEq, Repr

/-- Memory as the list of the bytes that differ from what an unlisted address reads as
(`Config.unwrittenByte`), by strictly rising address; `Memory.wf` says so (DESIGN CHOICE, safe:
notes/assumptions/5.md). -/
abbrev Memory := List Host.Cell

/-- The architectural state. -/
structure State where
  /-- `x[0]`..`x[7]` (R13); `x[7]` is the stack pointer (R15). -/
  regs   : Vector Byte 8
  /-- The address of the next instruction to fetch (R17). -/
  pc     : Byte
  /-- The flags register FL: E is bit 0, G bit 1, L bit 2 (R19). -/
  fl     : Byte
  /-- RUNNING or HALTED (R21). -/
  status : RunStatus
  /-- The halt cause (R21, R22). -/
  cause  : HaltCause
  /-- The 8-bit information byte recorded with the cause (R21, R22). -/
  info   : Byte
  /-- The 256 bytes of memory, program, data and stack in one (R23). -/
  mem    : Memory
  /-- The output port's sequence, oldest first (R24). -/
  out    : List Byte
  deriving DecidableEq, Repr

/-- Reasons a step could stop WITHOUT a next state: none. Every fault of this hardware is a halt that the state records
(R93), so it is a next state with `status` HALTED; no memory access can be out of range (R34); and a step of a HALTED core
changes nothing (R26). -/
inductive Fault where
  deriving DecidableEq, Repr

/-- Reasons the model gives an instruction no meaning. -/
inductive Refusal where
  /-- Raised by an arm of `exec` whose instruction has no meaning yet (safe: no claim can be proved of it). No arm does
  so now. -/
  | notModelled (mnemonic : String)
  deriving DecidableEq, Repr

/-- What a step or a meaning answers. -/
abbrev Result := Host.Outcome State Fault Refusal

/-- R28 with the image in which the loader has written no byte: every register and memory byte zero but
`x[7]` = 0xF4 (DESIGN CHOICE, safe: notes/assumptions/2.md). -/
def State.reset : State where
  regs   := #v[0, 0, 0, 0, 0, 0, 0, Config.spReset]
  pc     := Config.pcReset
  fl     := 0x00
  status := .running
  cause  := .none
  info   := 0x00
  mem    := []
  out    := []

end Sys2Proof.Machine
end

