-- ==== Sys2Proof/Machine/Flags.lean ====
section
/-! DEFINITION. The flags register FL: its layout (spec/10_state.md R19; UNVERIFIED, unsafe:
notes/assumptions/10.md) and the one computation that writes it, CMP's (spec/41_alu.md R80). -/

namespace Sys2Proof.Machine

/-- FL with E alone set: the last CMP found `x[a] = x[b]`. -/
def flagE : Byte := 0b00000001

/-- FL with G alone set: the last CMP found `x[a] > x[b]`. -/
def flagG : Byte := 0b00000010

/-- FL with L alone set: the last CMP found `x[a] < x[b]`. -/
def flagL : Byte := 0b00000100

/-- R80: the whole of FL after CMP; the comparison is unsigned. -/
def compareFlags (x y : Byte) : Byte :=
  if x.toNat = y.toNat then flagE
  else if x.toNat > y.toNat then flagG
  else flagL

/-- Bit E of FL, the only bit JEQ and JNE read (R20, R90, R91). -/
def equalBit (fl : Byte) : Bool := fl.getLsbD 0

end Sys2Proof.Machine
end

