-- ==== Sys2Proof/WellFormed.lean ====
section
/-! DEFINITION. When an instruction is well formed: every register operand is 0..7 (spec/30_encoding.md R48). The
immediate of LOAD_IMMEDIATE is any byte. -/

namespace Sys2Proof

/-- The register operands of an instruction, in the order R62 checks them: `opA`, then `opB`. The immediate of
LOAD_IMMEDIATE is not among them. -/
def Instr.regOperands : Instr → List Byte
  | .halt | .ret => []
  | .loadImmediate a _ => [a]
  | .printReg a | .not a | .push a | .pop a | .call a | .jmp a | .jeq a | .jne a => [a]
  | .add a b | .mul a b | .mod a b | .cmp a b | .and a b | .or a b | .xor a b | .shl a b | .shr a b => [a, b]

/-- R48: a register operand's legal values are 0..7. -/
def Instr.wellFormed (i : Instr) : Bool :=
  i.regOperands.all fun r => decide (r.toNat ≤ 7)

end Sys2Proof
end

