-- ==== Sys2Proof/Decode.lean ====
section
/-! DEFINITION. spec/30_encoding.md: the opcode table (R50), the length and PC-set rules (R44, R45), the decoder
(R53, R61) and, after it, the encoder. -/

namespace Sys2Proof

/-- R50: the opcode byte values (UNVERIFIED, unsafe: the spec takes them from the LS-8; notes/assumptions/4.md). -/
def Opcode.byte : Opcode → Byte
  | .halt          => 0b00000001
  | .loadImmediate => 0b10000010
  | .printReg      => 0b01000111
  | .add           => 0b10100000
  | .mul           => 0b10100010
  | .mod           => 0b10100100
  | .cmp           => 0b10100111
  | .and           => 0b10101000
  | .not           => 0b01101001
  | .or            => 0b10101010
  | .xor           => 0b10101011
  | .shl           => 0b10101100
  | .shr           => 0b10101101
  | .push          => 0b01000101
  | .pop           => 0b01000110
  | .call          => 0b01010000
  | .ret           => 0b00010001
  | .jmp           => 0b01010100
  | .jeq           => 0b01010101
  | .jne           => 0b01010110

/-- R47: the format of each instruction. NOT has one operand (90_conflicts.md C4). -/
def Opcode.format : Opcode → Format
  | .halt | .ret => .f0
  | .printReg | .not | .push | .pop | .call | .jmp | .jeq | .jne => .f1r
  | .add | .mul | .mod | .cmp | .and | .or | .xor | .shl | .shr => .f2rr
  | .loadImmediate => .f2ri

/-- The 20 opcodes, for the decoder to search. -/
def Opcode.all : List Opcode :=
  [.halt, .loadImmediate, .printReg,
   .add, .mul, .mod, .cmp, .and, .not, .or, .xor, .shl, .shr,
   .push, .pop,
   .call, .ret, .jmp, .jeq, .jne]

/-- R53: an exact match of the WHOLE byte against the 20 values; no field is decoded on its own. -/
def Opcode.ofByte (ir : Byte) : Option Opcode :=
  Opcode.all.find? fun o => o.byte == ir

/-- R44: `len(ir) = ir[7:6] + 1`, the length in bytes, opcode included. -/
def lengthOfByte (ir : Byte) : Nat := (ir >>> 6).toNat + 1

/-- R45: bit 4 of the opcode byte, mask 0b00010000 (90_conflicts.md C1). -/
def pcSetBit (ir : Byte) : Bool := ir.getLsbD 4

/-- The length R44 gives an opcode. -/
def Opcode.length (o : Opcode) : Nat := lengthOfByte o.byte

/-- Whether the instruction sets `pc` itself (R45). -/
def Opcode.setsPc (o : Opcode) : Bool := pcSetBit o.byte

/-- The instruction an opcode makes of the two fetched operand bytes; a byte its format does not use is dropped
(R47, R48). -/
def Opcode.instr (o : Opcode) (opA opB : Byte) : Instr :=
  match o with
  | .halt          => .halt
  | .loadImmediate => .loadImmediate opA opB
  | .printReg      => .printReg opA
  | .add           => .add opA opB
  | .mul           => .mul opA opB
  | .mod           => .mod opA opB
  | .cmp           => .cmp opA opB
  | .and           => .and opA opB
  | .not           => .not opA
  | .or            => .or opA opB
  | .xor           => .xor opA opB
  | .shl           => .shl opA opB
  | .shr           => .shr opA opB
  | .push          => .push opA
  | .pop           => .pop opA
  | .call          => .call opA
  | .ret           => .ret
  | .jmp           => .jmp opA
  | .jeq           => .jeq opA
  | .jne           => .jne opA

/-- Why bytes are not an instruction. -/
inductive DecodeError where
  /-- The byte is none of R50's 20 values (R54); the step raises ILLEGAL_OPCODE with it (R61). -/
  | illegalOpcode (ir : Byte)
  deriving DecidableEq, Repr

/-- R61: decode the three bytes that every fetch reads (R60). Total: any bytes give an instruction or a named error. -/
def decode (ir opA opB : Byte) : Except DecodeError Instr :=
  match Opcode.ofByte ir with
  | some o => .ok (o.instr opA opB)
  | none   => .error (.illegalOpcode ir)

/-- The opcode of an instruction. -/
def Instr.opcode : Instr → Opcode
  | .halt              => .halt
  | .loadImmediate _ _ => .loadImmediate
  | .printReg _        => .printReg
  | .add _ _           => .add
  | .mul _ _           => .mul
  | .mod _ _           => .mod
  | .cmp _ _           => .cmp
  | .and _ _           => .and
  | .not _             => .not
  | .or _ _            => .or
  | .xor _ _           => .xor
  | .shl _ _           => .shl
  | .shr _ _           => .shr
  | .push _            => .push
  | .pop _             => .pop
  | .call _            => .call
  | .ret               => .ret
  | .jmp _             => .jmp
  | .jeq _             => .jeq
  | .jne _             => .jne

/-- The operand bytes that follow the opcode byte (R43, R47). -/
def Instr.operandBytes : Instr → List Byte
  | .halt | .ret => []
  | .loadImmediate a imm => [a, imm]
  | .printReg a | .not a | .push a | .pop a | .call a | .jmp a | .jeq a | .jne a => [a]
  | .add a b | .mul a b | .mod a b | .cmp a b | .and a b | .or a b | .xor a b | .shl a b | .shr a b => [a, b]

/-- The bytes of an instruction at ascending addresses: opcode, operand A, operand B (R43, R56's table). -/
def encode (i : Instr) : List Byte := i.opcode.byte :: i.operandBytes

/-- Byte `k` of a table word: bit 0 of the word is bit 0 of the first byte, and every bit at or above `nbits`
is 0. -/
def tableByte (nbits w k : Nat) : Byte := BitVec.ofNat 8 ((w % 2 ^ nbits) / 2 ^ (8 * k))

/-- What the decoder reads from an instruction whose bits are `w`, numbered as spec/opcode_table.json numbers
them. -/
def decodeTableWord (nbits w : Nat) : Option Instr :=
  match decode (tableByte nbits w 0) (tableByte nbits w 1) (tableByte nbits w 2) with
  | .ok i    => some i
  | .error _ => none

end Sys2Proof
end

