-- ==== Sys2Proof/Machine/Ops.lean ====
section
/-! DEFINITION. The named operations over memory, registers and the run status that every meaning is built from:
spec/20_memory.md, spec/10_state.md, the step's phases of spec/40_cycle.md R59, and the one way to fault of
spec/60_exceptions.md R93. There is no return from a fault (R103): only reset leaves HALTED. -/

namespace Sys2Proof.Machine

/-- R10 `trunc8`: a non-negative integer modulo 256. -/
def trunc8 (n : Nat) : Byte := BitVec.ofNat 8 n

/-! ## Memory -/

/-- The canonical form: addresses strictly rising and below 256, and no entry for a byte that reads as an unlisted
address does. Equal memories are then equal lists. -/
abbrev Memory.wf (m : Memory) : Prop :=
  m.Pairwise (fun p q => p.1 < q.1) ∧ ∀ p ∈ m, p.1 < Config.memSize ∧ p.2 ≠ Config.unwrittenByte

/-- The byte at a key of the list. -/
def Memory.lookup : Memory → Nat → Byte
  | [], _ => Config.unwrittenByte
  | (k, v) :: rest, a => if k = a then v else Memory.lookup rest a

/-- R10 `MemRead(addr, 1)`: an address is 8 bits, so none is out of range (R34). -/
def Memory.read (m : Memory) (a : Byte) : Byte := Memory.lookup m a.toNat

/-- Forget whatever the list says of a key. -/
def Memory.erase (m : Memory) (a : Nat) : Memory := m.filter fun p => p.1 != a

/-- Put an entry in front of the first one with a larger key. -/
def Memory.insert : Memory → Nat → Byte → Memory
  | [], a, v => [(a, v)]
  | (k, w) :: rest, a, v => if a < k then (a, v) :: (k, w) :: rest else (k, w) :: Memory.insert rest a v

/-- R10 `MemWrite(addr, 1, v)`, keeping the canonical form. -/
def Memory.write (m : Memory) (a : Byte) (v : Byte) : Memory :=
  if v = Config.unwrittenByte then Memory.erase m a.toNat
  else Memory.insert (Memory.erase m a.toNat) a.toNat v

/-- The cell that the memory of an image lists at a key: none where the image reads as an unlisted address does. -/
def imageCell (image : Byte → Byte) (a : Nat) : Option Host.Cell :=
  if image (BitVec.ofNat 8 a) = Config.unwrittenByte then none else some (a, image (BitVec.ofNat 8 a))

/-- The memory that `reset(image)` leaves: `mem[i] = image[i]` (R28, R114). An image is 256 bytes, one for each
8-bit address. -/
def Memory.ofImage (image : Byte → Byte) : Memory := (List.range Config.memSize).filterMap (imageCell image)

/-- The image of a program of n bytes: its i-th byte at address i, and 0 from n on (R114).
Bytes from the 257th on are dropped (DESIGN CHOICE, safe: notes/assumptions/14.md). -/
def imageOfProgram (program : List Byte) : Byte → Byte := fun i => program.getD i.toNat Config.unwrittenByte

/-! ## Registers, flags, output -/

/-- R10 `x[i]`. -/
def State.reg (s : State) (r : RegIndex) : Byte := s.regs[r.val]

/-- R10 `x[i] <- v`. No register is hard-wired (R13). -/
def State.setReg (s : State) (r : RegIndex) (v : Byte) : State := { s with regs := s.regs.set r.val v }

/-- The stack pointer, `x[7]` (R15). -/
def State.sp (s : State) : Byte := s.reg Config.spIndex

/-- `x[7] <- v`. -/
def State.setSp (s : State) (v : Byte) : State := s.setReg Config.spIndex v

/-- `pc <- target`. -/
def State.setPc (s : State) (target : Byte) : State := { s with pc := target }

/-- `FL <- v`. -/
def State.setFl (s : State) (v : Byte) : State := { s with fl := v }

/-- The memory byte at an address. -/
def State.readByte (s : State) (a : Byte) : Byte := s.mem.read a

/-- Replace the memory byte at an address. -/
def State.writeByte (s : State) (a v : Byte) : State := { s with mem := s.mem.write a v }

/-- R10 `emit(v)`: append to the output port (R24). -/
def State.emit (s : State) (v : Byte) : State := { s with out := s.out ++ [v] }

/-! ## Halting and faulting -/

/-- R22: the code of a halt cause. -/
def HaltCause.code : HaltCause → Nat
  | .none => 0
  | .halt => 1
  | .illegalOpcode => 2
  | .badRegister => 3
  | .divByZero => 4
  | .pcOverflow => 5

/-- R22: codes 2 to 5 are faults. -/
def HaltCause.isFault (c : HaltCause) : Bool := 2 ≤ c.code

/-- Enter HALTED with a cause and an information byte, changing nothing else (R21, R93). -/
def State.halt (s : State) (c : HaltCause) (info : Byte) : State :=
  { s with status := .halted, cause := c, info := info }

/-- R10 `raise Fault(cause, info)`: the step that faults leaves the state it found, HALTED (R93; UNVERIFIED, unsafe:
notes/assumptions/11.md). `s` is the state BEFORE the step: none of the step's writes take effect. -/
def raiseFault (c : HaltCause) (info : Byte) (s : State) : Result := .next (s.halt c info)

/-- A step of a HALTED core does nothing (R26, R21; DEDUCED, safe: notes/assumptions/1.md). -/
def haltedStep (s : State) : Result := .next s

/-! ## The program counter -/

/-- `zext_9(pc) + len` where it fits in 8 bits (R64); CALL's return address and the not-taken JEQ and JNE use the
same sum (R87, R90, R91; UNVERIFIED, unsafe: notes/assumptions/7.md). -/
def nextPc (o : Opcode) (pc : Byte) : Option Byte :=
  if pc.toNat + o.length ≤ Config.pcMax then some (trunc8 (pc.toNat + o.length)) else none

/-- Phases 5 and 6 of R59 for an instruction that falls through: `s` is the state the step found and `s'` the same
with the instruction's writes. Past 0xFF none of the writes take effect (R64). -/
def fallThrough (o : Opcode) (s s' : State) : Result :=
  match nextPc o s.pc with
  | some p => .next (s'.setPc p)
  | none   => raiseFault .pcOverflow 0 s

/-! ## The stack (spec/42_stack.md R82) -/

/-- Decrement SP first, then write at the new SP. SP wraps modulo 256. -/
def State.pushByte (s : State) (v : Byte) : State :=
  (s.setSp (s.sp - 1)).writeByte (s.sp - 1) v

/-- The byte at SP, which a pop reads before it increments SP. -/
def State.topByte (s : State) : Byte := s.readByte s.sp

/-- Increment SP, modulo 256. The memory byte is not cleared (R84). -/
def State.dropByte (s : State) : State := s.setSp (s.sp + 1)

/-! ## Fetch and reset -/

/-- R60: three bytes at every step, at `pc`, `(pc + 1) mod 256` and `(pc + 2) mod 256` (UNVERIFIED, unsafe:
notes/assumptions/9.md). -/
def fetch (s : State) : Byte × Byte × Byte :=
  (s.readByte s.pc, s.readByte (s.pc + 1), s.readByte (s.pc + 2))

/-- `reset(image)` (R28, R111). It takes no earlier state, since it leaves nothing of it. -/
def State.resetWith (image : Byte → Byte) : State :=
  { State.reset with mem := Memory.ofImage image }

end Sys2Proof.Machine
end

