-- ==== Sys2Proof/Machine/Operands.lean ====
section
/-! DEFINITION. Phase 3 of the step: the register operands of each format (spec/30_encoding.md R48,
spec/40_cycle.md R62). The only other operand is LOAD_IMMEDIATE's immediate, used as it is. -/

namespace Sys2Proof.Machine

/-- The register a whole operand byte names: the byte itself, 0..7, never masked (R48). -/
def regOperand (r : Byte) : Option RegIndex :=
  if h : r.toNat < 8 then some ⟨r.toNat, h⟩ else none

/-- One register operand: above 7 it raises BAD_REGISTER with the byte as information (R62; UNVERIFIED,
unsafe: notes/assumptions/7.md). -/
def withReg (r : Byte) (s : State) (k : RegIndex → Result) : Result :=
  match regOperand r with
  | some i => k i
  | none   => raiseFault .badRegister r s

/-- The two register operands of F2RR, `opA` checked first (R62). -/
def withRegs (a b : Byte) (s : State) (k : RegIndex → RegIndex → Result) : Result :=
  withReg a s fun ra => withReg b s fun rb => k ra rb

end Sys2Proof.Machine
end

