-- ==== Sys2Proof/Machine/Alu.lean ====
section
/-! DEFINITION. The ten ALU instructions (spec/41_alu.md R70-R80): a pure function of one or two register values, then
the write of `x[a]` (CMP: of FL) and the fall-through. -/

namespace Sys2Proof.Machine

/-! ## The pure functions -/

/-- R71. -/
def aluAdd (x y : Byte) : Byte := trunc8 (x.toNat + y.toNat)

/-- R72: the low 8 bits of the full product. -/
def aluMul (x y : Byte) : Byte := trunc8 (x.toNat * y.toNat)

/-- R73: the unsigned remainder; `execMod` calls it with a non-zero divisor only. -/
def aluMod (x y : Byte) : Byte := trunc8 (x.toNat % y.toNat)

/-- R74. -/
def aluAnd (x y : Byte) : Byte := x &&& y

/-- R75. -/
def aluOr (x y : Byte) : Byte := x ||| y

/-- R76. -/
def aluXor (x y : Byte) : Byte := x ^^^ y

/-- R77. -/
def aluNot (x : Byte) : Byte := ~~~x

/-- R78: `trunc8(x * 2^y)`, any amount 0..255. -/
def aluShl (x y : Byte) : Byte := trunc8 (x.toNat * 2 ^ y.toNat)

/-- R79: `x div 2^y`, any amount 0..255. -/
def aluShr (x y : Byte) : Byte := trunc8 (x.toNat / 2 ^ y.toNat)

/-! ## The instructions -/

/-- What the two-register instructions that write `x[a]` share (R70): both registers are read before the write. -/
def aluBinary (o : Opcode) (f : Byte → Byte → Byte) (a b : Byte) (s : State) : Result :=
  withRegs a b s fun ra rb => fallThrough o s (s.setReg ra (f (s.reg ra) (s.reg rb)))

/-- R71. -/
def execAdd (a b : Byte) (s : State) : Result := aluBinary .add aluAdd a b s

/-- R72. -/
def execMul (a b : Byte) (s : State) : Result := aluBinary .mul aluMul a b s

/-- R73: DIV_BY_ZERO comes after the operand check and before the fall-through check (R100). -/
def execMod (a b : Byte) (s : State) : Result :=
  withRegs a b s fun ra rb =>
    if s.reg rb = 0 then raiseFault .divByZero 0 s
    else fallThrough .mod s (s.setReg ra (aluMod (s.reg ra) (s.reg rb)))

/-- R80: writes the whole of FL and no register. -/
def execCmp (a b : Byte) (s : State) : Result :=
  withRegs a b s fun ra rb => fallThrough .cmp s (s.setFl (compareFlags (s.reg ra) (s.reg rb)))

/-- R74. -/
def execAnd (a b : Byte) (s : State) : Result := aluBinary .and aluAnd a b s

/-- R77: one operand. -/
def execNot (a : Byte) (s : State) : Result :=
  withReg a s fun ra => fallThrough .not s (s.setReg ra (aluNot (s.reg ra)))

/-- R75. -/
def execOr (a b : Byte) (s : State) : Result := aluBinary .or aluOr a b s

/-- R76. -/
def execXor (a b : Byte) (s : State) : Result := aluBinary .xor aluXor a b s

/-- R78. -/
def execShl (a b : Byte) (s : State) : Result := aluBinary .shl aluShl a b s

/-- R79. -/
def execShr (a b : Byte) (s : State) : Result := aluBinary .shr aluShr a b s

end Sys2Proof.Machine
end

