-- ==== Sys2Proof/Machine/Basic.lean ====
section
/-! DEFINITION. HALT, LOAD_IMMEDIATE and PRINT_REG (spec/40_cycle.md R66-R68). -/

namespace Sys2Proof.Machine

/-- R66: HALTED with cause HALT; pc keeps the address of the HALT byte (UNVERIFIED, unsafe:
notes/assumptions/8.md). -/
def execHalt (s : State) : Result := .next (s.halt .halt 0)

/-- R67: `x[a] <- imm`. -/
def execLoadImmediate (a imm : Byte) (s : State) : Result :=
  withReg a s fun ra => fallThrough .loadImmediate s (s.setReg ra imm)

/-- R68: `emit(x[a])`. -/
def execPrintReg (a : Byte) (s : State) : Result :=
  withReg a s fun ra => fallThrough .printReg s (s.emit (s.reg ra))

end Sys2Proof.Machine
end

