-- ==== Sys2Proof/Machine/Control.lean ====
section
/-! DEFINITION. CALL, RETURN, JMP, JEQ and JNE (spec/43_control.md R86-R91). Each sets pc on every path that does not
fault (R65). -/

namespace Sys2Proof.Machine

/-- R87: the target is read before SP changes (UNVERIFIED, unsafe: notes/assumptions/6.md); the return
address is `pc + 2`, from the pc of the CALL. -/
def execCall (a : Byte) (s : State) : Result :=
  withReg a s fun ra =>
    match nextPc .call s.pc with
    | some returnAddress => .next ((s.pushByte returnAddress).setPc (s.reg ra))
    | none               => raiseFault .pcOverflow 0 s

/-- R88. -/
def execRet (s : State) : Result := .next (s.dropByte.setPc s.topByte)

/-- R89. -/
def execJmp (a : Byte) (s : State) : Result :=
  withReg a s fun ra => .next (s.setPc (s.reg ra))

/-- R90: PC_OVERFLOW on the not-taken path only. -/
def execJeq (a : Byte) (s : State) : Result :=
  withReg a s fun ra =>
    if equalBit s.fl = true then .next (s.setPc (s.reg ra)) else fallThrough .jeq s s

/-- R91: PC_OVERFLOW on the not-taken path only. -/
def execJne (a : Byte) (s : State) : Result :=
  withReg a s fun ra =>
    if equalBit s.fl = false then .next (s.setPc (s.reg ra)) else fallThrough .jne s s

end Sys2Proof.Machine
end

