-- ==== Sys2Proof/Machine/Stack.lean ====
section
/-! DEFINITION. PUSH and POP (spec/42_stack.md R83, R84). -/

namespace Sys2Proof.Machine

/-- R83: the register is read before SP changes, so PUSH R7 pushes the old SP (UNVERIFIED, unsafe:
notes/assumptions/6.md). -/
def execPush (a : Byte) (s : State) : Result :=
  withReg a s fun ra => fallThrough .push s (s.pushByte (s.reg ra))

/-- R84: the destination is written last, so POP R7 leaves R7 the popped byte (UNVERIFIED, unsafe:
notes/assumptions/6.md). -/
def execPop (a : Byte) (s : State) : Result :=
  withReg a s fun ra => fallThrough .pop s (s.dropByte.setReg ra s.topByte)

end Sys2Proof.Machine
end

