-- ==== Sys2Proof/Machine/Step.lean ====
section
/-! DEFINITION. One step: fetch, decode, then the instruction's meaning (spec/40_cycle.md R59). -/

namespace Sys2Proof.Machine

/-- Phases 1 and 2 of R59, then `exec`. An unrecognized opcode byte raises ILLEGAL_OPCODE with the byte (R61); a
HALTED core does nothing (R26). -/
def step (s : State) : Host.Outcome State Fault Refusal :=
  match s.status with
  | .halted => haltedStep s
  | .running =>
    match decode (fetch s).1 (fetch s).2.1 (fetch s).2.2 with
    | .ok i => exec i s
    | .error (.illegalOpcode ir) => raiseFault .illegalOpcode ir s

/-- `s` with the instruction word `w` stored at pc, pc + 1 and pc + 2 (modulo 256), and RUNNING, so that the very
next step fetches and runs it. It stands for the loader, which is outside the core (R6, R114; DESIGN CHOICE,
safe: notes/assumptions/3.md). -/
def State.withFetchWord (s : State) (nbits w : Nat) : State :=
  { ((s.writeByte s.pc (tableByte nbits w 0)).writeByte (s.pc + 1) (tableByte nbits w 1)).writeByte
      (s.pc + 2) (tableByte nbits w 2) with status := .running }

end Sys2Proof.Machine
end

