-- ==== Sys2Proof/Machine/Assembly.lean ====
section
/-! DEFINITION. The assembly syntax of spec/30_encoding.md R56 and R57, from a line of text to the instruction. The core
never sees it (92_eei_decisions.md D18): `step` does not use this file. -/

namespace Sys2Proof

/-- R56: a register `R0`..`R7`, or an immediate 0..255. -/
inductive AsmOperand where
  | reg (r : RegIndex)
  | imm (v : Byte)
  deriving DecidableEq, Repr

/-- The catalog's name (R56). -/
def Opcode.mnemonic : Opcode → String
  | .halt          => "HALT"
  | .loadImmediate => "LOAD_IMMEDIATE"
  | .printReg      => "PRINT_REG"
  | .add           => "ADD"
  | .mul           => "MUL"
  | .mod           => "MOD"
  | .cmp           => "CMP"
  | .and           => "AND"
  | .not           => "NOT"
  | .or            => "OR"
  | .xor           => "XOR"
  | .shl           => "SHL"
  | .shr           => "SHR"
  | .push          => "PUSH"
  | .pop           => "POP"
  | .call          => "CALL"
  | .ret           => "RETURN"
  | .jmp           => "JMP"
  | .jeq           => "JEQ"
  | .jne           => "JNE"

/-- The aliases: the LS-8 short names (R57), and `ALU_<op>` for the ten ALU operations (R56). -/
def Opcode.aliases : Opcode → List String
  | .halt          => ["HLT"]
  | .loadImmediate => ["LDI"]
  | .printReg      => ["PRN"]
  | .ret           => ["RET"]
  | .add           => ["ALU_ADD"]
  | .mul           => ["ALU_MUL"]
  | .mod           => ["ALU_MOD"]
  | .cmp           => ["ALU_CMP"]
  | .and           => ["ALU_AND"]
  | .not           => ["ALU_NOT"]
  | .or            => ["ALU_OR"]
  | .xor           => ["ALU_XOR"]
  | .shl           => ["ALU_SHL"]
  | .shr           => ["ALU_SHR"]
  | .push | .pop | .call | .jmp | .jeq | .jne => []

/-- The opcode that a mnemonic or an alias names. There are no pseudo-instructions (R57). -/
def Opcode.ofName (name : String) : Option Opcode :=
  Opcode.all.find? fun o => o.mnemonic == name || o.aliases.any (· == name)

/-- A register operand's byte (R48). -/
def regByte (r : RegIndex) : Byte := BitVec.ofNat 8 r.val

/-- R56's table: the operands each format takes, in order; anything else is not assembly of this core. -/
def assemble (name : String) (operands : List AsmOperand) : Option Instr :=
  match Opcode.ofName name with
  | none   => none
  | some o =>
    match o.format, operands with
    | .f0,   []               => some (o.instr 0 0)
    | .f1r,  [.reg a]         => some (o.instr (regByte a) 0)
    | .f2rr, [.reg a, .reg b] => some (o.instr (regByte a) (regByte b))
    | .f2ri, [.reg a, .imm v] => some (o.instr (regByte a) v)
    | _,     _                => none

/-! ## Spelling -/

/-- A digit of a base up to sixteen; hexadecimal letters in either case (R9, R56). -/
def digitOf (base : Nat) (c : Char) : Option Nat :=
  let d :=
    if '0' ≤ c ∧ c ≤ '9' then c.toNat - '0'.toNat
    else if 'a' ≤ c ∧ c ≤ 'f' then c.toNat - 'a'.toNat + 10
    else if 'A' ≤ c ∧ c ≤ 'F' then c.toNat - 'A'.toNat + 10
    else base
  if d < base then some d else none

/-- Digits after the ones already read, most significant first. -/
def numeralFrom (base acc : Nat) : List Char → Option Nat
  | []      => some acc
  | c :: cs => (digitOf base c).bind fun d => numeralFrom base (base * acc + d) cs

/-- At least one digit. -/
def numeral (base : Nat) (cs : List Char) : Option Nat :=
  if cs.isEmpty then none else numeralFrom base 0 cs

/-- R56: a decimal, `0x` hexadecimal or `0b` binary number in 0..255. -/
def parseImm (cs : List Char) : Option Byte :=
  let n := match cs with
    | '0' :: 'x' :: ds => numeral 16 ds
    | '0' :: 'b' :: ds => numeral 2 ds
    | ds               => numeral 10 ds
  n.bind fun v => if v ≤ 255 then some (BitVec.ofNat 8 v) else none

/-- R56: `R0`..`R7`, lower case accepted. -/
def parseReg : List Char → Option RegIndex
  | ['R', c] | ['r', c] => (digitOf 8 c).bind fun d => if h : d < 8 then some ⟨d, h⟩ else none
  | _                   => none

/-- A register or an immediate. -/
def parseOperand (cs : List Char) : Option AsmOperand :=
  match parseReg cs with
  | some r => some (.reg r)
  | none   => (parseImm cs).map .imm

/-- Drop the spaces at both ends. -/
def trimSpaces (cs : List Char) : List Char :=
  ((cs.dropWhile (· == ' ')).reverse.dropWhile (· == ' ')).reverse

/-- The pieces between commas, an empty piece included. -/
def splitCommas : List Char → List (List Char)
  | []      => [[]]
  | c :: cs =>
    if c = ',' then [] :: splitCommas cs
    else match splitCommas cs with
      | p :: ps => (c :: p) :: ps
      | []      => [[c]]

/-- R56: one line, `MNEMONIC operands`, with the operands separated by commas. Where spaces may stand is the model's
choice (DESIGN CHOICE, safe: notes/assumptions/13.md). -/
def assembleLine (line : String) : Option Instr :=
  let cs := trimSpaces line.toList
  let name := String.ofList (cs.takeWhile (· != ' '))
  let rest := trimSpaces (cs.dropWhile (· != ' '))
  if rest.isEmpty then assemble name []
  else ((splitCommas rest).mapM fun o => parseOperand (trimSpaces o)).bind (assemble name)

end Sys2Proof
end

