-- ==== Sys2Proof/Safety.lean ====
section
/-! DEFINITION. What a run's end means (spec/40_cycle.md R69), which fault a step raises (spec/60_exceptions.md R100), and
the invariant of the machine. -/

namespace Sys2Proof.Machine

/-- R69: a clean end is cause HALT. -/
def State.cleanEnd (s : State) : Bool := s.status = .halted ∧ s.cause = .halt

/-- R69: every other cause of a halt is a fault. -/
def State.faulted (s : State) : Bool := s.status = .halted ∧ s.cause.isFault

/-- Whether the instruction computes `pc + len` with this FL: it falls through (R64), or is CALL, a not-taken JEQ or a
not-taken JNE (R100 item 5). -/
def needsNextPc (o : Opcode) (fl : Byte) : Bool :=
  (!o.setsPc && o != .halt) || o == .call || (o == .jeq && !equalBit fl) || (o == .jne && equalBit fl)

/-- R100: the fault a step of this state raises, the first that applies, with its information byte (R95). It reads the
fetched bytes and the tables, and calls no meaning. -/
def State.firstFault (s : State) : Option (HaltCause × Byte) :=
  match Opcode.ofByte (fetch s).1 with
  | none => some (.illegalOpcode, (fetch s).1)
  | some o =>
    if o.format ≠ .f0 ∧ 7 < (fetch s).2.1.toNat then some (.badRegister, (fetch s).2.1)
    else if o.format = .f2rr ∧ 7 < (fetch s).2.2.toNat then some (.badRegister, (fetch s).2.2)
    else if o = .mod ∧ (regOperand (fetch s).2.2).map s.reg = some 0 then some (.divByZero, 0)
    else if needsNextPc o s.fl = true ∧ Config.pcMax < s.pc.toNat + o.length then some (.pcOverflow, 0)
    else none

/-- The invariant: memory in canonical form; FL one of R19's four values; and the halt record of R21 and R22 is NONE and 0
while RUNNING, and in HALTED is explained by the instruction at the unchanged pc (R66, R93, R94): a HALT, or the
one that raises exactly this fault. -/
structure State.Inv (s : State) : Prop where
  memory_wf : s.mem.wf
  fl_legal : s.fl = 0 ∨ s.fl = flagE ∨ s.fl = flagG ∨ s.fl = flagL
  running_record : s.status = .running → s.cause = .none ∧ s.info = 0
  halted_record : s.status = .halted →
    (s.cause = .halt ∧ s.info = 0 ∧ (fetch s).1 = Opcode.byte .halt) ∨ s.firstFault = some (s.cause, s.info)

end Sys2Proof.Machine
end

