-- ==== Sys2Proof/Certificates/Slice0/Obligations.lean ====
section
/-! DEFINITION. The statements for the provers. The words they are said in come first (`Sys2Proof.Spec`): each is a reading of
the spec's own words over the state's observable parts, so that a rule is stated without the meanings' own
shared operations. Where a rule rests on a choice that the spec calls its own decision (D<n> of
spec/92_eei_decisions.md), or a statement on an entry of this model's log, the docstring names it. -/

namespace Sys2Proof.Spec

open Sys2Proof.Machine

/-! ## Words for the state before and after -/

/-- R93: the step ends in HALTED with this cause and information byte, and changes nothing else. -/
def Faults (s : State) (c : HaltCause) (info : Byte) (answer : Result) : Prop :=
  answer = .next { s with status := .halted, cause := c, info := info }

/-- Every register but those listed holds what it held. -/
def SameRegsBut (written : List RegIndex) (s t : State) : Prop := ∀ r, r ∉ written → t.reg r = s.reg r

/-- Every byte of memory reads as it did. -/
def SameMemory (s t : State) : Prop := ∀ a : Byte, t.readByte a = s.readByte a

/-- Every byte of memory but the one at this address reads as it did. -/
def SameMemoryBut (written : Byte) (s t : State) : Prop := ∀ a : Byte, a ≠ written → t.readByte a = s.readByte a

/-- Run status, halt cause and information byte are what they were. -/
def SameRecord (s t : State) : Prop := t.status = s.status ∧ t.cause = s.cause ∧ t.info = s.info

/-! ## Shapes that several rules share -/

/-- The instruction completes, writes `v` to `x[d]`, moves pc on by `len`, and changes nothing else. -/
def WritesRegister (i : Instr) (s : State) (d : RegIndex) (v : Byte) (len : Nat) : Prop :=
  ∃ t, exec i s = .next t ∧ t.reg d = v ∧ SameRegsBut [d] s t ∧ t.pc.toNat = s.pc.toNat + len ∧
    t.fl = s.fl ∧ SameMemory s t ∧ t.out = s.out ∧ SameRecord s t

/-- The BAD_REGISTER clause of an instruction with one register operand (R62). -/
def BadOneRegister (i : Instr) (a : Byte) (s : State) : Prop :=
  7 < a.toNat → Faults s .badRegister a (exec i s)

/-- The BAD_REGISTER clauses of an F2RR instruction: `opA` first (R62). -/
def BadTwoRegisters (i : Instr) (a b : Byte) (s : State) : Prop :=
  (7 < a.toNat → Faults s .badRegister a (exec i s)) ∧
  (a.toNat ≤ 7 → 7 < b.toNat → Faults s .badRegister b (exec i s))

/-- The template of R71, R72, R74 to R76, R78 and R79: an F2RR instruction that writes `f x[a] x[b]` to `x[a]`. -/
def TwoRegisterRule (i : Byte → Byte → Instr) (opcode : Byte) (f : Byte → Byte → Byte) : Prop :=
  ∀ (a b : Byte) (s : State),
    encode (i a b) = [opcode, a, b] ∧
    (∀ ra rb : RegIndex, a.toNat = ra.val → b.toNat = rb.val → s.pc.toNat ≤ 0xFC →
      WritesRegister (i a b) s ra (f (s.reg ra) (s.reg rb)) 3) ∧
    BadTwoRegisters (i a b) a b s ∧
    (a.toNat ≤ 7 → b.toNat ≤ 7 → 0xFC < s.pc.toNat → Faults s .pcOverflow 0 (exec (i a b) s))

/-- R16's column "reads". -/
def regsRead : Instr → List Nat
  | .halt => []
  | .loadImmediate _ _ => []
  | .printReg a => [a.toNat]
  | .add a b | .mul a b | .mod a b | .and a b | .or a b | .xor a b | .shl a b | .shr a b => [a.toNat, b.toNat]
  | .not a => [a.toNat]
  | .cmp a b => [a.toNat, b.toNat]
  | .push a => [a.toNat, 7]
  | .pop _ => [7]
  | .call a => [a.toNat, 7]
  | .ret => [7]
  | .jmp a | .jeq a | .jne a => [a.toNat]

/-- R16's column "writes". -/
def regsWritten : Instr → List Nat
  | .halt => []
  | .loadImmediate a _ => [a.toNat]
  | .printReg _ => []
  | .add a _ | .mul a _ | .mod a _ | .and a _ | .or a _ | .xor a _ | .shl a _ | .shr a _ => [a.toNat]
  | .not a => [a.toNat]
  | .cmp _ _ => []
  | .push _ => [7]
  | .pop a => [7, a.toNat]
  | .call _ => [7]
  | .ret => [7]
  | .jmp _ | .jeq _ | .jne _ => []

/-- The 20 opcode bytes of R50. -/
def opcodeBytes : List Byte :=
  [0x01, 0x82, 0x47, 0xA0, 0xA2, 0xA4, 0xA7, 0xA8, 0x69, 0xAA, 0xAB, 0xAC, 0xAD, 0x45, 0x46, 0x50, 0x11, 0x54, 0x55, 0x56]

/-- Store bytes at ascending addresses, modulo 256. -/
def storeBytes (s : State) (a : Byte) : List Byte → State
  | [] => s
  | v :: vs => storeBytes (s.writeByte a v) (a + 1) vs

/-- A fetch that reads address `x`, as opcode, as operand A or as operand B, gets `v` (R60). -/
def FetchedAs (s : State) (x v : Byte) : Prop :=
  (fetch { s with pc := x }).1 = v ∧ (fetch { s with pc := x - 1 }).2.1 = v ∧ (fetch { s with pc := x - 2 }).2.2 = v

/-- R30: the next step is a PUSH (0x45) or a CALL (0x50) whose store goes to address `x`. -/
def StoresAt (s : State) (x : Byte) : Prop :=
  s.status = .running ∧ (s.readByte s.pc = 0x45 ∨ s.readByte s.pc = 0x50) ∧ x = s.reg 7 - 1

/-- Address `x` is fetched as `v` now and after any number of steps, as long as no step before stores at `x`. -/
def FetchedUntilNextStore (s : State) (x v : Byte) : Prop :=
  ∀ (k : Nat) (u : State), core.run k s = .next u →
    (∀ (j : Nat) (q : State), j < k → core.run j s = .next q → ¬ StoresAt q x) → FetchedAs u x v

end Sys2Proof.Spec

open Sys2Proof Sys2Proof.Machine Sys2Proof.Spec

/-! ## One statement per instruction: its rule, whole -/

/-- R66 (decision D8: HALT leaves pc at its own address). -/
def Obligations.HaltStopsWithPcUnchanged : Prop :=
  encode .halt = [0x01] ∧
  ∀ s : State, exec .halt s = .next { s with status := .halted, cause := .halt, info := 0 }

/-- R67. -/
def Obligations.LoadImmediateWritesItsImmediate : Prop :=
  ∀ (a imm : Byte) (s : State),
    encode (.loadImmediate a imm) = [0x82, a, imm] ∧
    (∀ ra : RegIndex, a.toNat = ra.val → s.pc.toNat ≤ 0xFC → WritesRegister (.loadImmediate a imm) s ra imm 3) ∧
    BadOneRegister (.loadImmediate a imm) a s ∧
    (a.toNat ≤ 7 → 0xFC < s.pc.toNat → Faults s .pcOverflow 0 (exec (.loadImmediate a imm) s))

/-- R68 (decision D12: the port takes the value). -/
def Obligations.PrintRegEmitsItsRegister : Prop :=
  ∀ (a : Byte) (s : State),
    encode (.printReg a) = [0x47, a] ∧
    (∀ ra : RegIndex, a.toNat = ra.val → s.pc.toNat ≤ 0xFD →
      ∃ t, exec (.printReg a) s = .next t ∧ t.out = s.out ++ [s.reg ra] ∧ t.pc.toNat = s.pc.toNat + 2 ∧
        SameRegsBut [] s t ∧ t.fl = s.fl ∧ SameMemory s t ∧ SameRecord s t) ∧
    BadOneRegister (.printReg a) a s ∧
    (a.toNat ≤ 7 → 0xFD < s.pc.toNat → Faults s .pcOverflow 0 (exec (.printReg a) s))

/-- R71. -/
def Obligations.AddWritesSumModulo256 : Prop :=
  TwoRegisterRule .add 0xA0 fun x y => BitVec.ofNat 8 ((x.toNat + y.toNat) % 256)

/-- R72. -/
def Obligations.MulWritesLowByteOfProduct : Prop :=
  TwoRegisterRule .mul 0xA2 fun x y => BitVec.ofNat 8 ((x.toNat * y.toNat) % 256)

/-- R73: the remainder, and DIV_BY_ZERO between the operand check and the overflow check. -/
def Obligations.ModWritesRemainderOrFaults : Prop :=
  ∀ (a b : Byte) (s : State),
    encode (.mod a b) = [0xA4, a, b] ∧
    (∀ ra rb : RegIndex, a.toNat = ra.val → b.toNat = rb.val → s.reg rb ≠ 0 → s.pc.toNat ≤ 0xFC →
      WritesRegister (.mod a b) s ra (BitVec.ofNat 8 ((s.reg ra).toNat % (s.reg rb).toNat)) 3) ∧
    BadTwoRegisters (.mod a b) a b s ∧
    (∀ ra rb : RegIndex, a.toNat = ra.val → b.toNat = rb.val → s.reg rb = 0 →
      Faults s .divByZero 0 (exec (.mod a b) s)) ∧
    (∀ ra rb : RegIndex, a.toNat = ra.val → b.toNat = rb.val → s.reg rb ≠ 0 → 0xFC < s.pc.toNat →
      Faults s .pcOverflow 0 (exec (.mod a b) s))

/-- R74, bit by bit. -/
def Obligations.AndWritesBitwiseAnd : Prop :=
  TwoRegisterRule .and 0xA8 (fun x y => x &&& y) ∧
  ∀ (x y : Byte) (k : Nat), (x &&& y).getLsbD k = (x.getLsbD k && y.getLsbD k)

/-- R75, bit by bit. -/
def Obligations.OrWritesBitwiseOr : Prop :=
  TwoRegisterRule .or 0xAA (fun x y => x ||| y) ∧
  ∀ (x y : Byte) (k : Nat), (x ||| y).getLsbD k = (x.getLsbD k || y.getLsbD k)

/-- R76, bit by bit. -/
def Obligations.XorWritesBitwiseXor : Prop :=
  TwoRegisterRule .xor 0xAB (fun x y => x ^^^ y) ∧
  ∀ (x y : Byte) (k : Nat), (x ^^^ y).getLsbD k = (x.getLsbD k ^^ y.getLsbD k)

/-- R77: one operand, and `~x[a]` is `255 - x[a]`. -/
def Obligations.NotWritesComplement : Prop :=
  ∀ (a : Byte) (s : State),
    encode (.not a) = [0x69, a] ∧
    (∀ ra : RegIndex, a.toNat = ra.val → s.pc.toNat ≤ 0xFD →
      WritesRegister (.not a) s ra (BitVec.ofNat 8 (255 - (s.reg ra).toNat)) 2) ∧
    BadOneRegister (.not a) a s ∧
    (a.toNat ≤ 7 → 0xFD < s.pc.toNat → Faults s .pcOverflow 0 (exec (.not a) s))

/-- R78, with the spec's equivalent form: 0 for an amount of 8 or more, else a plain shift. -/
def Obligations.ShlShiftsLeftByAnyAmount : Prop :=
  TwoRegisterRule .shl 0xAC (fun x y => BitVec.ofNat 8 ((x.toNat * 2 ^ y.toNat) % 256)) ∧
  ∀ x y : Byte,
    BitVec.ofNat 8 ((x.toNat * 2 ^ y.toNat) % 256) = if 8 ≤ y.toNat then 0 else (x <<< y.toNat) &&& 0xFF

/-- R79, with the spec's equivalent form: 0 for an amount of 8 or more, else a plain logical shift. -/
def Obligations.ShrShiftsRightByAnyAmount : Prop :=
  TwoRegisterRule .shr 0xAD (fun x y => BitVec.ofNat 8 (x.toNat / 2 ^ y.toNat)) ∧
  ∀ x y : Byte, BitVec.ofNat 8 (x.toNat / 2 ^ y.toNat) = if 8 ≤ y.toNat then 0 else x >>> y.toNat

/-- R80 (decision D2: the bit positions). -/
def Obligations.CmpSetsExactlyOneFlag : Prop :=
  ∀ (a b : Byte) (s : State),
    encode (.cmp a b) = [0xA7, a, b] ∧
    (∀ ra rb : RegIndex, a.toNat = ra.val → b.toNat = rb.val → s.pc.toNat ≤ 0xFC →
      ∃ t, exec (.cmp a b) s = .next t ∧
        t.fl = (if (s.reg ra).toNat = (s.reg rb).toNat then 0b00000001
          else if (s.reg ra).toNat > (s.reg rb).toNat then 0b00000010 else 0b00000100) ∧
        SameRegsBut [] s t ∧ t.pc.toNat = s.pc.toNat + 3 ∧ SameMemory s t ∧ t.out = s.out ∧ SameRecord s t) ∧
    BadTwoRegisters (.cmp a b) a b s ∧
    (a.toNat ≤ 7 → b.toNat ≤ 7 → 0xFC < s.pc.toNat → Faults s .pcOverflow 0 (exec (.cmp a b) s))

/-- R83 (decision D10: PUSH R7 pushes the old SP). -/
def Obligations.PushDecrementsSpThenStores : Prop :=
  ∀ (a : Byte) (s : State),
    encode (.push a) = [0x45, a] ∧
    (∀ ra : RegIndex, a.toNat = ra.val → s.pc.toNat ≤ 0xFD →
      ∃ t, exec (.push a) s = .next t ∧
        t.reg 7 = BitVec.ofNat 8 (((s.reg 7).toNat + 255) % 256) ∧ SameRegsBut [7] s t ∧
        t.readByte (BitVec.ofNat 8 (((s.reg 7).toNat + 255) % 256)) = s.reg ra ∧
        SameMemoryBut (BitVec.ofNat 8 (((s.reg 7).toNat + 255) % 256)) s t ∧
        t.pc.toNat = s.pc.toNat + 2 ∧ t.fl = s.fl ∧ t.out = s.out ∧ SameRecord s t) ∧
    BadOneRegister (.push a) a s ∧
    (a.toNat ≤ 7 → 0xFD < s.pc.toNat → Faults s .pcOverflow 0 (exec (.push a) s))

/-- R84 (decision D10: POP R7 leaves R7 the popped byte). -/
def Obligations.PopReadsThenIncrementsSp : Prop :=
  ∀ (a : Byte) (s : State),
    encode (.pop a) = [0x46, a] ∧
    (∀ ra : RegIndex, a.toNat = ra.val → s.pc.toNat ≤ 0xFD →
      ∃ t, exec (.pop a) s = .next t ∧
        t.reg ra = s.readByte (s.reg 7) ∧
        (ra ≠ 7 → t.reg 7 = BitVec.ofNat 8 (((s.reg 7).toNat + 1) % 256)) ∧ SameRegsBut [7, ra] s t ∧
        t.pc.toNat = s.pc.toNat + 2 ∧ t.fl = s.fl ∧ SameMemory s t ∧ t.out = s.out ∧ SameRecord s t) ∧
    BadOneRegister (.pop a) a s ∧
    (a.toNat ≤ 7 → 0xFD < s.pc.toNat → Faults s .pcOverflow 0 (exec (.pop a) s))

/-- R87 (decisions D3: a return address above 0xFF faults; D10: CALL R7 jumps to the old SP). -/
def Obligations.CallPushesReturnAddressAndJumps : Prop :=
  ∀ (a : Byte) (s : State),
    encode (.call a) = [0x50, a] ∧
    (∀ ra : RegIndex, a.toNat = ra.val → s.pc.toNat ≤ 0xFD →
      ∃ t, exec (.call a) s = .next t ∧
        t.pc = s.reg ra ∧
        t.reg 7 = BitVec.ofNat 8 (((s.reg 7).toNat + 255) % 256) ∧ SameRegsBut [7] s t ∧
        (t.readByte (BitVec.ofNat 8 (((s.reg 7).toNat + 255) % 256))).toNat = s.pc.toNat + 2 ∧
        SameMemoryBut (BitVec.ofNat 8 (((s.reg 7).toNat + 255) % 256)) s t ∧
        t.fl = s.fl ∧ t.out = s.out ∧ SameRecord s t) ∧
    BadOneRegister (.call a) a s ∧
    (a.toNat ≤ 7 → 0xFD < s.pc.toNat → Faults s .pcOverflow 0 (exec (.call a) s))

/-- R88: no exception at any pc. -/
def Obligations.ReturnPopsThePc : Prop :=
  encode .ret = [0x11] ∧
  ∀ s : State, ∃ t, exec .ret s = .next t ∧
    t.pc = s.readByte (s.reg 7) ∧
    t.reg 7 = BitVec.ofNat 8 (((s.reg 7).toNat + 1) % 256) ∧ SameRegsBut [7] s t ∧
    t.fl = s.fl ∧ SameMemory s t ∧ t.out = s.out ∧ SameRecord s t

/-- R89: no PC_OVERFLOW at any pc. -/
def Obligations.JmpSetsPcToItsRegister : Prop :=
  ∀ (a : Byte) (s : State),
    encode (.jmp a) = [0x54, a] ∧
    (∀ ra : RegIndex, a.toNat = ra.val → exec (.jmp a) s = .next { s with pc := s.reg ra }) ∧
    BadOneRegister (.jmp a) a s

/-- R90: the operand is checked on both paths, and PC_OVERFLOW is of the not-taken path alone. -/
def Obligations.JeqBranchesWhenEqualIsSet : Prop :=
  ∀ (a : Byte) (s : State),
    encode (.jeq a) = [0x55, a] ∧
    (∀ ra : RegIndex, a.toNat = ra.val → s.fl.getLsbD 0 = true →
      exec (.jeq a) s = .next { s with pc := s.reg ra }) ∧
    (a.toNat ≤ 7 → s.fl.getLsbD 0 = false → s.pc.toNat ≤ 0xFD →
      exec (.jeq a) s = .next { s with pc := BitVec.ofNat 8 (s.pc.toNat + 2) }) ∧
    BadOneRegister (.jeq a) a s ∧
    (a.toNat ≤ 7 → s.fl.getLsbD 0 = false → 0xFD < s.pc.toNat → Faults s .pcOverflow 0 (exec (.jeq a) s))

/-- R91: the operand is checked on both paths, and PC_OVERFLOW is of the not-taken path alone. -/
def Obligations.JneBranchesWhenEqualIsClear : Prop :=
  ∀ (a : Byte) (s : State),
    encode (.jne a) = [0x56, a] ∧
    (∀ ra : RegIndex, a.toNat = ra.val → s.fl.getLsbD 0 = false →
      exec (.jne a) s = .next { s with pc := s.reg ra }) ∧
    (a.toNat ≤ 7 → s.fl.getLsbD 0 = true → s.pc.toNat ≤ 0xFD →
      exec (.jne a) s = .next { s with pc := BitVec.ofNat 8 (s.pc.toNat + 2) }) ∧
    BadOneRegister (.jne a) a s ∧
    (a.toNat ≤ 7 → s.fl.getLsbD 0 = true → 0xFD < s.pc.toNat → Faults s .pcOverflow 0 (exec (.jne a) s))

/-! ## Encoding -/

/-- R50's table, row by row: value, bits 7:6, bit 4, length, format. (The values are the spec's decision D1; log
entry 4.) -/
def Obligations.OpcodeTableIsTheSpecs : Prop :=
  [Opcode.halt, .loadImmediate, .printReg, .add, .mul, .mod, .cmp, .and, .not, .or, .xor, .shl, .shr, .push, .pop,
      .call, .ret, .jmp, .jeq, .jne].map
      (fun o : Opcode => (o.byte, (o.byte >>> 6).toNat, o.byte.getLsbD 4, o.length, o.format)) =
    [(0b00000001, 0, false, 1, Format.f0), (0b10000010, 2, false, 3, .f2ri), (0b01000111, 1, false, 2, .f1r),
     (0b10100000, 2, false, 3, .f2rr), (0b10100010, 2, false, 3, .f2rr), (0b10100100, 2, false, 3, .f2rr),
     (0b10100111, 2, false, 3, .f2rr), (0b10101000, 2, false, 3, .f2rr), (0b01101001, 1, false, 2, .f1r),
     (0b10101010, 2, false, 3, .f2rr), (0b10101011, 2, false, 3, .f2rr), (0b10101100, 2, false, 3, .f2rr),
     (0b10101101, 2, false, 3, .f2rr), (0b01000101, 1, false, 2, .f1r), (0b01000110, 1, false, 2, .f1r),
     (0b01010000, 1, true, 2, .f1r), (0b00010001, 0, true, 1, .f0), (0b01010100, 1, true, 2, .f1r),
     (0b01010101, 1, true, 2, .f1r), (0b01010110, 1, true, 2, .f1r)]

/-- Words written out from R50 and R47 decode to the instructions they stand for. -/
def Obligations.SampleWordsDecode : Prop :=
  decode 0b00000001 0x55 0xAA = .ok .halt ∧
  decode 0b10000010 0x07 0x80 = .ok (.loadImmediate 7 0x80) ∧
  decode 0b10100111 0x03 0x05 = .ok (.cmp 3 5) ∧
  decode 0b01101001 0x00 0xFF = .ok (.not 0) ∧
  decode 0b01000110 0x01 0x00 = .ok (.pop 1) ∧
  decode 0b01010101 0x02 0x00 = .ok (.jeq 2) ∧
  decode 0b10100001 0x00 0x01 = .error (.illegalOpcode 0xA1)

/-- Decoding the bytes of an encoded instruction gives it back, whatever bytes follow it in memory, for every
instruction and every operand byte. -/
def Obligations.DecodeAndEncodeAgree : Prop :=
  ∀ (i : Instr) (following : List Byte) (ir opA opB : Byte) (more : List Byte),
    encode i ++ following = ir :: opA :: opB :: more → decode ir opA opB = .ok i

/-- The other direction: what the decoder reads, the encoder writes back as the first `ir[7:6] + 1` of the bytes read
(R44, R53): each word has one meaning. -/
def Obligations.EncodeGivesBackTheDecodedBytes : Prop :=
  ∀ (ir opA opB : Byte) (i : Instr),
    decode ir opA opB = .ok i → encode i = [ir, opA, opB].take ((ir >>> 6).toNat + 1)

/-- R53 and R54: exactly the 20 bytes of R50 decode, whatever the operand bytes; the other 236 are named in the
refusal. -/
def Obligations.DecoderAcceptsExactlyTheTable : Prop :=
  (∀ ir opA opB : Byte, (∃ i, decode ir opA opB = .ok i) ↔ ir ∈ opcodeBytes) ∧
  (∀ ir opA opB : Byte, ir ∉ opcodeBytes → decode ir opA opB = .error (.illegalOpcode ir)) ∧
  ((List.range 256).filter fun n => (Opcode.ofByte (BitVec.ofNat 8 n)).isNone).length = 236

/-- R48, R55: a byte that the format does not use may hold any value. -/
def Obligations.UnusedOperandBytesHaveNoEffect : Prop :=
  ∀ ir opA opB opA' opB' : Byte,
    ((ir >>> 6).toNat + 1 = 2 → decode ir opA opB = decode ir opA opB') ∧
    ((ir >>> 6).toNat + 1 = 1 → decode ir opA opB = decode ir opA' opB')

/-- R56, R57: under its mnemonic and under every alias, each instruction with the operands of its format assembles to R56's
bytes, and whatever assembles is well formed. -/
def Obligations.AssemblyGivesTheTablesBytes : Prop :=
  (∀ (o : Opcode) (name : String) (a b : RegIndex) (v : Byte), name ∈ o.mnemonic :: o.aliases →
    (o.format = .f0 → (assemble name []).map encode = some [o.byte]) ∧
    (o.format = .f1r → (assemble name [.reg a]).map encode = some [o.byte, BitVec.ofNat 8 a.val]) ∧
    (o.format = .f2rr →
      (assemble name [.reg a, .reg b]).map encode = some [o.byte, BitVec.ofNat 8 a.val, BitVec.ofNat 8 b.val]) ∧
    (o.format = .f2ri → (assemble name [.reg a, .imm v]).map encode = some [o.byte, BitVec.ofNat 8 a.val, v])) ∧
  ∀ (name : String) (operands : List AsmOperand) (i : Instr), assemble name operands = some i → i.wellFormed = true

/-! ## The step -/

/-- R60 and R35 (decision D4: modulo 256). -/
def Obligations.FetchReadsThreeBytesModulo256 : Prop :=
  ∀ s : State,
    fetch s = (s.readByte s.pc, s.readByte (BitVec.ofNat 8 ((s.pc.toNat + 1) % 256)),
      s.readByte (BitVec.ofNat 8 ((s.pc.toNat + 2) % 256)))

/-- R59, R63: a step of a RUNNING core whose fetched bytes decode to `i` is the meaning of `i` at that state, with nothing
around it: the meaning itself checks the operands and moves pc. -/
def Obligations.StepRunsTheDecodedInstruction : Prop :=
  ∀ (s : State) (i : Instr), s.status = .running →
    decode (fetch s).1 (fetch s).2.1 (fetch s).2.2 = .ok i → step s = exec i s

/-- R61: a byte outside R50 raises ILLEGAL_OPCODE with the byte, and pc stays at its address. -/
def Obligations.StepFaultsOnAnUnrecognizedOpcode : Prop :=
  ∀ s : State, s.status = .running → s.readByte s.pc ∉ opcodeBytes →
    Faults s .illegalOpcode (s.readByte s.pc) (step s)

/-- R26: the step "does nothing when HALTED". The model's reading of R21 and R59, which say there is no step: log entry 1. -/
def Obligations.StepOfAHaltedCoreDoesNothing : Prop :=
  ∀ s : State, s.status = .halted → step s = .next s

/-- R62 (decision D5): which operands are checked, in which order, with which information byte; and an instruction whose
checked operands are legal never raises BAD_REGISTER. -/
def Obligations.RegisterOperandsAreCheckedInOrder : Prop :=
  ∀ (o : Opcode) (opA opB : Byte) (s : State),
    (o.format = .f1r ∨ o.format = .f2ri ∨ o.format = .f2rr → 7 < opA.toNat →
      Faults s .badRegister opA (exec (o.instr opA opB) s)) ∧
    (o.format = .f2rr → opA.toNat ≤ 7 → 7 < opB.toNat → Faults s .badRegister opB (exec (o.instr opA opB) s)) ∧
    ((o.format ≠ .f0 → opA.toNat ≤ 7) → (o.format = .f2rr → opB.toNat ≤ 7) →
      ∀ t, exec (o.instr opA opB) s = .next t → t.cause = .badRegister → s.cause = .badRegister)

/-- R64 (decision D3): an instruction with bit 4 of its opcode clear, other than HALT, whose operands are legal and that is
not a MOD by zero, moves pc on by `ir[7:6] + 1`, or raises PC_OVERFLOW with no effect. -/
def Obligations.AdvanceAddsTheOpcodesLength : Prop :=
  ∀ (i : Instr) (s : State), i.opcode.byte.getLsbD 4 = false → i ≠ .halt →
    (∀ r ∈ i.regOperands, r.toNat ≤ 7) →
    (∀ (a b : Byte) (rb : RegIndex), i = .mod a b → b.toNat = rb.val → s.reg rb ≠ 0) →
    (s.pc.toNat + ((i.opcode.byte >>> 6).toNat + 1) ≤ 255 →
      ∃ t, exec i s = .next t ∧ t.pc.toNat = s.pc.toNat + ((i.opcode.byte >>> 6).toNat + 1) ∧ SameRecord s t) ∧
    (255 < s.pc.toNat + ((i.opcode.byte >>> 6).toNat + 1) → Faults s .pcOverflow 0 (exec i s))

/-- R93: whatever the instruction and the state, either the run status, cause and information byte stay as they were, or the
step is a halt that changes these three alone (a fault, or HALT with information 0). -/
def Obligations.EveryHaltIsPrecise : Prop :=
  ∀ (i : Instr) (s t : State), exec i s = .next t →
    SameRecord s t ∨
    (t = { s with status := .halted, cause := t.cause, info := t.info } ∧
      (t.cause.isFault = true ∨ (i = .halt ∧ t.cause = .halt ∧ t.info = 0)))

/-- R100 (decision D9): a step raises the first applicable fault of the list and no other, and where none applies it
goes on RUNNING or halts on HALT. -/
def Obligations.StepRaisesTheFirstApplicableFault : Prop :=
  ∀ s : State, s.status = .running →
    (∀ c info, s.firstFault = some (c, info) → Faults s c info (step s)) ∧
    (s.firstFault = none →
      ∃ t, step s = .next t ∧
        (SameRecord s t ∨ (t.status = .halted ∧ t.cause = .halt ∧ t.info = 0 ∧ s.readByte s.pc = 0x01)))

/-- R119's progress: no step of a RUNNING core is a stop without a next state. That a step of a HALTED core answers a next
state too is the model's reading of R26 (log entry 1). -/
def Obligations.EveryStepHasANextState : Prop := ∀ s : State, ∃ t, step s = .next t

/-- R22: the codes, and codes 2 to 5 are the faults. -/
def Obligations.HaltCausesHaveTheirCodes : Prop :=
  [HaltCause.none, .halt, .illegalOpcode, .badRegister, .divByZero, .pcOverflow].map
    (fun c => (c.code, c.isFault)) = [(0, false), (1, false), (2, true), (3, true), (4, true), (5, true)]

/-! ## Who reads and writes what -/

/-- R16: a register outside an instruction's column "writes" keeps its value; and the value of one outside its column "reads" has
no influence, on its own new value either: where the instruction writes that register, the value written is the same. -/
def Obligations.RegistersReadAndWrittenAreTheTables : Prop :=
  ∀ (i : Instr) (s t : State), exec i s = .next t →
    (∀ r : RegIndex, r.val ∉ regsWritten i → t.reg r = s.reg r) ∧
    (∀ (r : RegIndex) (v : Byte), r.val ∉ regsRead i →
      ∃ u, exec i (s.setReg r v) = .next u ∧ (∀ q, q ≠ r → u.reg q = t.reg q) ∧
        (r.val ∉ regsWritten i → u.reg r = v) ∧
        (r.val ∈ regsWritten i → u.reg r = t.reg r ∨ (∃ c info, Faults s c info (exec i s)) ∧ u.reg r = v) ∧
        u.pc = t.pc ∧ u.fl = t.fl ∧ u.mem = t.mem ∧ u.out = t.out ∧ SameRecord t u)

/-- R20: CMP is the only writer of FL; JEQ and JNE are its only readers, of bit E alone; at most one of the three flags stays
set, and bits 7:3 stay 0. -/
def Obligations.FlagsAreWrittenByCmpAndReadByJumps : Prop :=
  ∀ (i : Instr) (s t : State), exec i s = .next t →
    (t.fl = s.fl ∨ ∃ a b, i = .cmp a b) ∧
    (∀ f : Byte, ((∃ a, i = .jeq a ∨ i = .jne a) → f.getLsbD 0 = s.fl.getLsbD 0) →
      ∃ u, exec i { s with fl := f } = .next u ∧ u = { t with fl := u.fl } ∧ (u.fl = f ∨ u.fl = t.fl)) ∧
    (s.fl ∈ [0x00, 0x01, 0x02, 0x04] → t.fl ∈ [0x00, 0x01, 0x02, 0x04])

/-- R30: the addresses of every access. A step fetches at pc, pc + 1 and pc + 2; only PUSH and CALL write, at the decremented
`x[7]`; only POP and RETURN read, at the old `x[7]`: no other byte of memory has any influence. -/
def Obligations.MemoryIsAccessedOnlyByTheStack : Prop :=
  (∀ s : State, fetch s = (s.readByte s.pc, s.readByte (BitVec.ofNat 8 ((s.pc.toNat + 1) % 256)),
    s.readByte (BitVec.ofNat 8 ((s.pc.toNat + 2) % 256)))) ∧
  ∀ (i : Instr) (s t : State), exec i s = .next t →
    (∀ a : Byte, t.readByte a ≠ s.readByte a →
      (∃ r, i = .push r ∨ i = .call r) ∧ a = BitVec.ofNat 8 (((s.reg 7).toNat + 255) % 256)) ∧
    (∀ m : Memory, ((∃ r, i = .pop r) ∨ i = .ret → m.read (s.reg 7) = s.mem.read (s.reg 7)) →
      ∃ u, exec i { s with mem := m } = .next u ∧ u.regs = t.regs ∧ u.pc = t.pc ∧ u.fl = t.fl ∧ u.out = t.out ∧
        SameRecord t u ∧
        (∀ a : Byte, u.readByte a = m.read a ∨ u.readByte a = t.readByte a))

/-- R24: the port is empty at reset, PRINT_REG appends one value, nothing else writes it, and the core never reads it. -/
def Obligations.OutputIsAppendedByPrintRegAndNeverRead : Prop :=
  (∀ image, (State.resetWith image).out = []) ∧
  ∀ (i : Instr) (s t : State), exec i s = .next t →
    (t.out = s.out ∨ ∃ (a : Byte) (ra : RegIndex), i = .printReg a ∧ a.toNat = ra.val ∧ t.out = s.out ++ [s.reg ra]) ∧
    (∀ port : List Byte,
      exec i { s with out := port } = .next { t with out := port ++ t.out.drop s.out.length })

/-! ## Reset, invariant, runs -/

/-- R28: every part of the state after `reset(image)`, for every image (decisions D13, D16). -/
def Obligations.ResetLeavesTheSpecsState : Prop :=
  ∀ image : Byte → Byte,
    (∀ r : RegIndex, r.val ≤ 6 → (State.resetWith image).reg r = 0x00) ∧
    (State.resetWith image).reg 7 = 0xF4 ∧
    (State.resetWith image).pc = 0x00 ∧
    (State.resetWith image).fl = 0x00 ∧
    (∀ a : Byte, (State.resetWith image).readByte a = image a) ∧
    (State.resetWith image).status = .running ∧
    (State.resetWith image).cause = .none ∧
    (State.resetWith image).info = 0 ∧
    (State.resetWith image).out = []

/-- The model's `State.reset` is the reset with an image of zeros (log entry 2), and it meets the invariant. -/
def Obligations.ResetMeetsTheInvariant : Prop :=
  State.reset.Inv ∧ ∀ a : Byte, State.reset.readByte a = 0x00

/-- Every step keeps the invariant (R19, R21, R22, R93, R94, and the memory's canonical form), from every state that meets it,
reachable or not. -/
def Obligations.StepKeepsTheInvariant : Prop :=
  ∀ s t : State, s.Inv → step s = .next t → t.Inv

/-- Every state of every run from `reset(image)`, for every image, meets the invariant (R69). -/
def Obligations.EveryRunFromEveryImageMeetsTheInvariant : Prop :=
  ∀ (image : Byte → Byte) (k : Nat) (t : State), core.run k (State.resetWith image) = .next t → t.Inv

/-- R21, R110: a run that has reached HALTED stays there, with its whole state. (The model's reading of "no further step": log
entry 1.) -/
def Obligations.HaltedIsTerminal : Prop :=
  ∀ (k j : Nat) (s t : State), core.run k s = .next t → t.status = .halted → core.run (k + j) s = .next t

/-- Along a run the output port only grows, by at most one value a step (R24, R69). -/
def Obligations.OutputOnlyGrows : Prop :=
  ∀ (k : Nat) (s t : State), core.run k s = .next t → ∃ emitted : List Byte, t.out = s.out ++ emitted ∧ emitted.length ≤ k

/-- R54: with no program loaded the first step after reset raises ILLEGAL_OPCODE(0x00) at address 0 (log entry 2). -/
def Obligations.EmptyMemoryHaltsAtOnce : Prop :=
  step State.reset = .next { State.reset with status := .halted, cause := .illegalOpcode, info := 0x00 }

/-- Memories in canonical form that read alike at every address are the same data (the model's representation, log
entry 5). -/
def Obligations.CanonicalMemoriesAreExtensional : Prop :=
  ∀ m n : Memory, m.wf → n.wf → (∀ a : Byte, m.read a = n.read a) → m = n

/-! ## Encoding, memory and the step together -/

/-- The bytes of any instruction, stored at pc (modulo 256) in any RUNNING state, are fetched, decoded and run as that
instruction by the very next step. -/
def Obligations.StoredInstructionRuns : Prop :=
  ∀ (i : Instr) (s : State), s.status = .running →
    step (storeBytes s s.pc (encode i)) = exec i (storeBytes s s.pc (encode i))

/-- R113, R114: the first instruction of a loaded program is the first that runs. R114 loads no program of more than 256 bytes;
of a longer one the model takes the first 256 (log entry 14). -/
def Obligations.LoadedProgramStartsAtItsFirstInstruction : Prop :=
  ∀ (i : Instr) (rest : List Byte),
    step (State.resetWith (imageOfProgram (encode i ++ rest))) =
      exec i (State.resetWith (imageOfProgram (encode i ++ rest)))

/-- R41 (decision D14): a fetch sees memory as the previous steps left it. Every address is fetched as the byte it holds
until a step stores there; and a PUSH or CALL changes the byte at the decremented SP, and no other, for every later
fetch until the next store there. -/
def Obligations.FetchSeesEveryEarlierStore : Prop :=
  (∀ (s : State) (x : Byte), FetchedUntilNextStore s x (s.readByte x)) ∧
  ∀ (a : Byte) (ra : RegIndex) (s : State), a.toNat = ra.val → s.pc.toNat ≤ 0xFD →
    (∃ t, exec (.push a) s = .next t ∧ ∀ x : Byte,
      FetchedUntilNextStore t x (if x = s.reg 7 - 1 then s.reg ra else s.readByte x)) ∧
    (∃ t, exec (.call a) s = .next t ∧ ∀ x : Byte,
      FetchedUntilNextStore t x (if x = s.reg 7 - 1 then s.pc + 2 else s.readByte x))

/-! ## Two instructions together -/

/-- R85, which the spec marks as its own inference from R83 and R84: PUSH Ra, then anything that leaves SP and the byte at
SP alone, then POP Rb, with neither register R7, moves `x[a]` to `x[b]`, restores SP, and leaves the pushed byte in memory. -/
def Obligations.PushThenPopRoundTrips : Prop :=
  ∀ (a b : Byte) (ra rb : RegIndex) (s u : State), a.toNat = ra.val → b.toNat = rb.val → ra ≠ 7 → rb ≠ 7 →
    s.pc.toNat ≤ 0xFD → u.pc.toNat ≤ 0xFD →
    ∃ t, exec (.push a) s = .next t ∧
      (u.reg 7 = t.reg 7 → u.readByte (t.reg 7) = t.readByte (t.reg 7) →
        ∃ v, exec (.pop b) u = .next v ∧ v.reg rb = s.reg ra ∧ v.reg 7 = s.reg 7 ∧
          v.readByte (s.reg 7 - 1) = s.reg ra)

/-- R92, which the spec marks as its own inference from R87 and R88: a RETURN that finds SP and the byte at SP as the CALL
left them resumes at the address after the CALL and restores SP. -/
def Obligations.CallThenReturnResumes : Prop :=
  ∀ (a : Byte) (ra : RegIndex) (s u : State), a.toNat = ra.val → s.pc.toNat ≤ 0xFD →
    ∃ t, exec (.call a) s = .next t ∧
      (u.reg 7 = t.reg 7 → u.readByte (t.reg 7) = t.readByte (t.reg 7) →
        ∃ v, exec .ret u = .next v ∧ v.pc.toNat = s.pc.toNat + 2 ∧ v.reg 7 = s.reg 7)

/-- R91: JNE and JEQ with the same FL always take opposite paths. -/
def Obligations.JeqAndJneTakeOppositePaths : Prop :=
  ∀ (a : Byte) (ra : RegIndex) (s : State), a.toNat = ra.val → s.pc.toNat ≤ 0xFD →
    ∃ t u, exec (.jeq a) s = .next t ∧ exec (.jne a) s = .next u ∧
      ((t.pc = s.reg ra ∧ u.pc.toNat = s.pc.toNat + 2) ∨ (t.pc.toNat = s.pc.toNat + 2 ∧ u.pc = s.reg ra))
end

