-- ==== Sys2Proof/Laws/Decode.lean ====
section
/-! SUPPORT. The opcode table: searching it for a row's byte finds the row, and only that row. -/

namespace Sys2Proof

theorem mem_all (o : Opcode) : o ∈ Opcode.all := by cases o <;> decide

theorem ofByte_byte (o : Opcode) : Opcode.ofByte o.byte = some o := by cases o <;> rfl

theorem byte_of_ofByte {ir : Byte} {o : Opcode} (h : Opcode.ofByte ir = some o) : o.byte = ir := by
  simpa using List.find?_some h

theorem ofByte_eq_some {ir : Byte} {o : Opcode} : Opcode.ofByte ir = some o ↔ o.byte = ir :=
  ⟨byte_of_ofByte, fun h => h ▸ ofByte_byte o⟩

theorem ofByte_eq_none {ir : Byte} : Opcode.ofByte ir = none ↔ ∀ o : Opcode, o.byte ≠ ir := by
  constructor
  · intro h o ho
    simp [ofByte_eq_some.2 ho] at h
  · intro h
    cases ho : Opcode.ofByte ir with
    | none => rfl
    | some o => exact absurd (byte_of_ofByte ho) (h o)

theorem instr_opcode (o : Opcode) (opA opB : Byte) : (o.instr opA opB).opcode = o := by cases o <;> rfl

theorem decode_of_some {ir : Byte} {o : Opcode} (h : Opcode.ofByte ir = some o) (opA opB : Byte) :
    decode ir opA opB = .ok (o.instr opA opB) := by simp [decode, h]

theorem decode_of_none {ir : Byte} (h : Opcode.ofByte ir = none) (opA opB : Byte) :
    decode ir opA opB = .error (.illegalOpcode ir) := by simp [decode, h]

/-- R44 and R45 for every row of R50: the lengths and the PC-set bits. -/
theorem length_of_format (o : Opcode) :
    o.length = match o.format with | .f0 => 1 | .f1r => 2 | .f2rr => 3 | .f2ri => 3 := by
  cases o <;> rfl

theorem setsPc_iff (o : Opcode) : o.setsPc = true ↔ o = .call ∨ o = .ret ∨ o = .jmp ∨ o = .jeq ∨ o = .jne := by
  cases o <;> decide

end Sys2Proof
end

