-- ==== Sys2Proof/Laws/State.lean ====
section
/-! SUPPORT. What each update of State leaves in each field, and the register file's read after write. -/

namespace Sys2Proof.Machine

variable (s : State) (r q : RegIndex) (v a : Byte) (c : HaltCause)

@[simp] theorem setReg_pc : (s.setReg r v).pc = s.pc := rfl
@[simp] theorem setReg_fl : (s.setReg r v).fl = s.fl := rfl
@[simp] theorem setReg_status : (s.setReg r v).status = s.status := rfl
@[simp] theorem setReg_cause : (s.setReg r v).cause = s.cause := rfl
@[simp] theorem setReg_info : (s.setReg r v).info = s.info := rfl
@[simp] theorem setReg_mem : (s.setReg r v).mem = s.mem := rfl
@[simp] theorem setReg_out : (s.setReg r v).out = s.out := rfl
@[simp] theorem setReg_readByte : (s.setReg r v).readByte a = s.readByte a := rfl

@[simp] theorem setPc_regs : (s.setPc v).regs = s.regs := rfl
@[simp] theorem setPc_pc : (s.setPc v).pc = v := rfl
@[simp] theorem setPc_fl : (s.setPc v).fl = s.fl := rfl
@[simp] theorem setPc_status : (s.setPc v).status = s.status := rfl
@[simp] theorem setPc_cause : (s.setPc v).cause = s.cause := rfl
@[simp] theorem setPc_info : (s.setPc v).info = s.info := rfl
@[simp] theorem setPc_mem : (s.setPc v).mem = s.mem := rfl
@[simp] theorem setPc_out : (s.setPc v).out = s.out := rfl
@[simp] theorem setPc_reg : (s.setPc v).reg q = s.reg q := rfl
@[simp] theorem setPc_sp : (s.setPc v).sp = s.sp := rfl
@[simp] theorem setPc_readByte : (s.setPc v).readByte a = s.readByte a := rfl

@[simp] theorem setFl_regs : (s.setFl v).regs = s.regs := rfl
@[simp] theorem setFl_pc : (s.setFl v).pc = s.pc := rfl
@[simp] theorem setFl_fl : (s.setFl v).fl = v := rfl
@[simp] theorem setFl_status : (s.setFl v).status = s.status := rfl
@[simp] theorem setFl_cause : (s.setFl v).cause = s.cause := rfl
@[simp] theorem setFl_info : (s.setFl v).info = s.info := rfl
@[simp] theorem setFl_mem : (s.setFl v).mem = s.mem := rfl
@[simp] theorem setFl_out : (s.setFl v).out = s.out := rfl
@[simp] theorem setFl_reg : (s.setFl v).reg q = s.reg q := rfl
@[simp] theorem setFl_readByte : (s.setFl v).readByte a = s.readByte a := rfl

@[simp] theorem writeByte_regs : (s.writeByte a v).regs = s.regs := rfl
@[simp] theorem writeByte_pc : (s.writeByte a v).pc = s.pc := rfl
@[simp] theorem writeByte_fl : (s.writeByte a v).fl = s.fl := rfl
@[simp] theorem writeByte_status : (s.writeByte a v).status = s.status := rfl
@[simp] theorem writeByte_cause : (s.writeByte a v).cause = s.cause := rfl
@[simp] theorem writeByte_info : (s.writeByte a v).info = s.info := rfl
@[simp] theorem writeByte_mem : (s.writeByte a v).mem = s.mem.write a v := rfl
@[simp] theorem writeByte_out : (s.writeByte a v).out = s.out := rfl
@[simp] theorem writeByte_reg : (s.writeByte a v).reg q = s.reg q := rfl
@[simp] theorem writeByte_sp : (s.writeByte a v).sp = s.sp := rfl

@[simp] theorem emit_regs : (s.emit v).regs = s.regs := rfl
@[simp] theorem emit_pc : (s.emit v).pc = s.pc := rfl
@[simp] theorem emit_fl : (s.emit v).fl = s.fl := rfl
@[simp] theorem emit_status : (s.emit v).status = s.status := rfl
@[simp] theorem emit_cause : (s.emit v).cause = s.cause := rfl
@[simp] theorem emit_info : (s.emit v).info = s.info := rfl
@[simp] theorem emit_mem : (s.emit v).mem = s.mem := rfl
@[simp] theorem emit_out : (s.emit v).out = s.out ++ [v] := rfl
@[simp] theorem emit_reg : (s.emit v).reg q = s.reg q := rfl
@[simp] theorem emit_readByte : (s.emit v).readByte a = s.readByte a := rfl

@[simp] theorem halt_regs : (s.halt c v).regs = s.regs := rfl
@[simp] theorem halt_pc : (s.halt c v).pc = s.pc := rfl
@[simp] theorem halt_fl : (s.halt c v).fl = s.fl := rfl
@[simp] theorem halt_status : (s.halt c v).status = .halted := rfl
@[simp] theorem halt_cause : (s.halt c v).cause = c := rfl
@[simp] theorem halt_info : (s.halt c v).info = v := rfl
@[simp] theorem halt_mem : (s.halt c v).mem = s.mem := rfl
@[simp] theorem halt_out : (s.halt c v).out = s.out := rfl
@[simp] theorem halt_reg : (s.halt c v).reg q = s.reg q := rfl
@[simp] theorem halt_sp : (s.halt c v).sp = s.sp := rfl
@[simp] theorem halt_readByte : (s.halt c v).readByte a = s.readByte a := rfl
@[simp] theorem halt_fetch : fetch (s.halt c v) = fetch s := rfl

/-- Reading a register after a write (R13: no alias, none hard-wired). -/
@[simp] theorem setReg_reg : (s.setReg r v).reg q = if q = r then v else s.reg q := by
  simp only [State.reg, State.setReg, Vector.getElem_set, eq_comm (a := q), Fin.ext_iff]

theorem setReg_reg_same : (s.setReg r v).reg r = v := by simp

theorem setReg_reg_ne (h : q ≠ r) : (s.setReg r v).reg q = s.reg q := by simp [h]

@[simp] theorem setSp_eq : s.setSp v = s.setReg Config.spIndex v := rfl

@[simp] theorem sp_eq : s.sp = s.reg Config.spIndex := rfl

end Sys2Proof.Machine
end

