-- ==== Sys2Proof/Laws/Memory.lean ====
section
/-! SUPPORT. Memory: read after write, and that every operation keeps the canonical form. -/

namespace Sys2Proof.Machine

/-! ## Reading -/

theorem lookup_erase (m : Memory) (a k : Nat) :
    Memory.lookup (Memory.erase m a) k = if k = a then Config.unwrittenByte else Memory.lookup m k := by
  induction m with
  | nil => simp [Memory.erase, Memory.lookup]
  | cons p m ih =>
    obtain ⟨j, v⟩ := p
    simp only [Memory.erase] at ih
    by_cases hj : j = a
    · subst hj
      by_cases hk : k = j
      · subst hk; simpa [Memory.erase] using ih
      · simp [Memory.erase, Memory.lookup, ih, hk, Ne.symm hk]
    · by_cases hk : j = k
      · subst hk; simp [Memory.erase, Memory.lookup, hj]
      · simp [Memory.erase, Memory.lookup, ih, hj, hk]

theorem lookup_insert (m : Memory) (a k : Nat) (v : Byte) (h : ∀ p ∈ m, p.1 ≠ a) :
    Memory.lookup (Memory.insert m a v) k = if k = a then v else Memory.lookup m k := by
  induction m with
  | nil => simp [Memory.insert, Memory.lookup, eq_comm]
  | cons p m ih =>
    obtain ⟨j, w⟩ := p
    have hj : j ≠ a := h (j, w) (by simp)
    have ih := ih fun p hp => h p (by simp [hp])
    by_cases hlt : a < j
    · simp [Memory.insert, hlt, Memory.lookup, eq_comm (a := a)]
    · by_cases hk : j = k
      · subst hk; simp [Memory.insert, hlt, Memory.lookup, hj]
      · simp [Memory.insert, hlt, Memory.lookup, ih, hk]

theorem mem_erase {m : Memory} {a : Nat} {p : Host.Cell} : p ∈ Memory.erase m a ↔ p ∈ m ∧ p.1 ≠ a := by
  simp [Memory.erase]

theorem lookup_write (m : Memory) (a v : Byte) (k : Nat) :
    Memory.lookup (m.write a v) k = if k = a.toNat then v else Memory.lookup m k := by
  unfold Memory.write
  split
  · next h => simp [lookup_erase, h]
  · rw [lookup_insert _ _ _ _ fun p hp => (mem_erase.1 hp).2, lookup_erase]
    split <;> simp_all

/-- A read of any list after a write: the value at the address written, the old byte elsewhere. -/
@[simp] theorem read_write (m : Memory) (a b v : Byte) :
    (m.write a v).read b = if b = a then v else m.read b := by
  simp [Memory.read, lookup_write, BitVec.toNat_inj]

@[simp] theorem writeByte_readByte (s : State) (a b v : Byte) :
    (s.writeByte a v).readByte b = if b = a then v else s.readByte b :=
  read_write s.mem a b v

/-! ## The canonical form -/

theorem wf_nil : Memory.wf [] := by simp [Memory.wf]

theorem wf_erase {m : Memory} (h : m.wf) (a : Nat) : (Memory.erase m a).wf :=
  ⟨h.1.filter _, fun p hp => h.2 p (mem_erase.1 hp).1⟩

theorem mem_insert {m : Memory} {a : Nat} {v : Byte} {p : Host.Cell} :
    p ∈ Memory.insert m a v ↔ p = (a, v) ∨ p ∈ m := by
  induction m with
  | nil => simp [Memory.insert]
  | cons q m ih =>
    obtain ⟨j, w⟩ := q
    by_cases hlt : a < j
    · simp [Memory.insert, hlt]
    · simp only [Memory.insert, hlt, if_false, List.mem_cons, ih]; tauto

theorem pairwise_insert {m : Memory} (h : m.Pairwise fun p q => p.1 < q.1) {a : Nat} (ha : ∀ p ∈ m, p.1 ≠ a)
    (v : Byte) : (Memory.insert m a v).Pairwise fun p q => p.1 < q.1 := by
  induction m with
  | nil => simp [Memory.insert]
  | cons q m ih =>
    obtain ⟨j, w⟩ := q
    have hm := List.pairwise_cons.1 h
    have hj : j ≠ a := ha (j, w) (by simp)
    by_cases hlt : a < j
    · simp only [Memory.insert, hlt, if_true]
      refine List.pairwise_cons.2 ⟨fun p hp => ?_, h⟩
      rcases List.mem_cons.1 hp with rfl | hp
      · exact hlt
      · exact hlt.trans (hm.1 p hp)
    · simp only [Memory.insert, hlt, if_false]
      refine List.pairwise_cons.2 ⟨fun p hp => ?_, ih hm.2 fun p hp => ha p (by simp [hp])⟩
      rcases mem_insert.1 hp with rfl | hp
      · simp only; omega
      · exact hm.1 p hp

/-- A write keeps the canonical form. -/
theorem wf_write {m : Memory} (h : m.wf) (a v : Byte) : (m.write a v).wf := by
  unfold Memory.write
  split
  · exact wf_erase h _
  · next hv =>
    refine ⟨pairwise_insert (wf_erase h _).1 (fun p hp => (mem_erase.1 hp).2) v, fun p hp => ?_⟩
    rcases mem_insert.1 hp with rfl | hp
    · exact ⟨a.isLt, hv⟩
    · exact (wf_erase h _).2 p hp

theorem wf_reset : State.reset.mem.wf := wf_nil

/-! ## The memory of an image -/

theorem imageCell_fst {image : Byte → Byte} {a : Nat} {p : Host.Cell} (h : imageCell image a = some p) :
    p.1 = a ∧ p.2 ≠ Config.unwrittenByte := by
  unfold imageCell at h
  split at h
  · cases h
  · next hv => cases h; exact ⟨rfl, hv⟩

/-- Reset's memory has the canonical form, whatever the image. -/
theorem wf_ofImage (image : Byte → Byte) : (Memory.ofImage image).wf := by
  refine ⟨List.Pairwise.filterMap _ ?_ List.pairwise_lt_range, fun p hp => ?_⟩
  · intro a b hab p hp q hq
    have hp := imageCell_fst hp
    have hq := imageCell_fst hq
    omega
  · obtain ⟨a, ha, hp⟩ := List.mem_filterMap.1 hp
    have h := imageCell_fst hp
    exact ⟨h.1 ▸ List.mem_range.1 ha, h.2⟩

theorem lookup_filterMap_image (image : Byte → Byte) (keys : List Nat) (k : Nat) :
    Memory.lookup (keys.filterMap (imageCell image)) k =
      if k ∈ keys then image (BitVec.ofNat 8 k) else Config.unwrittenByte := by
  induction keys with
  | nil => simp [Memory.lookup]
  | cons j keys ih =>
    by_cases hv : image (BitVec.ofNat 8 j) = Config.unwrittenByte
    · rw [List.filterMap_cons_none (by simp [imageCell, hv]), ih]
      by_cases hk : k = j
      · subst hk; simp [hv]
      · simp [hk]
    · rw [List.filterMap_cons_some (by simp [imageCell, hv]; rfl)]
      by_cases hk : j = k
      · subst hk; simp [Memory.lookup]
      · simp [Memory.lookup, ih, hk, Ne.symm hk]

/-- R28: `mem[i] = image[i]`. -/
@[simp] theorem read_ofImage (image : Byte → Byte) (a : Byte) : (Memory.ofImage image).read a = image a := by
  have ha : a.toNat < Config.memSize := a.isLt
  simp [Memory.read, Memory.ofImage, lookup_filterMap_image, ha]

end Sys2Proof.Machine
end

