-- ==== Sys2Proof/Laws/Ops.lean ====
section
/-! SUPPORT. One lemma for each shared operation that says everything it can answer; the meanings' proofs cite these and do
not unfold the operations. -/

namespace Sys2Proof.Machine

@[simp] theorem trunc8_toNat (n : Nat) : (trunc8 n).toNat = n % 256 := by simp [trunc8]

theorem raiseFault_eq (c : HaltCause) (info : Byte) (s : State) : raiseFault c info s = .next (s.halt c info) := rfl

theorem haltedStep_eq (s : State) : haltedStep s = .next s := rfl

/-! ## Operands -/

theorem regOperand_of_le {r : Byte} (h : r.toNat ≤ 7) : ∃ i : RegIndex, i.val = r.toNat ∧ regOperand r = some i :=
  ⟨⟨r.toNat, by omega⟩, rfl, by simp [regOperand, show r.toNat < 8 by omega]⟩

theorem regOperand_eq_some {r : Byte} {i : RegIndex} : regOperand r = some i ↔ r.toNat = i.val := by
  unfold regOperand
  split
  · simp [Fin.ext_iff]
  · have := i.isLt
    simp; omega

theorem regOperand_eq_none {r : Byte} : regOperand r = none ↔ 7 < r.toNat := by
  simp only [regOperand, dite_eq_right_iff, reduceCtorEq, imp_false]; omega

theorem withReg_some {r : Byte} {i : RegIndex} (h : r.toNat = i.val) (s : State) (k : RegIndex → Result) :
    withReg r s k = k i := by simp [withReg, regOperand_eq_some.2 h]

theorem withReg_bad {r : Byte} (h : 7 < r.toNat) (s : State) (k : RegIndex → Result) :
    withReg r s k = .next (s.halt .badRegister r) := by
  simp [withReg, regOperand_eq_none.2 h, raiseFault_eq]

/-- Everything one operand check can answer. -/
theorem withReg_cases (r : Byte) (s : State) (k : RegIndex → Result) :
    (∃ i : RegIndex, r.toNat = i.val ∧ withReg r s k = k i) ∨
      (7 < r.toNat ∧ withReg r s k = .next (s.halt .badRegister r)) := by
  by_cases h : 7 < r.toNat
  · exact .inr ⟨h, withReg_bad h s k⟩
  · exact .inl ⟨⟨r.toNat, by omega⟩, rfl, withReg_some rfl s k⟩

theorem withRegs_some {a b : Byte} {ra rb : RegIndex} (ha : a.toNat = ra.val) (hb : b.toNat = rb.val) (s : State)
    (k : RegIndex → RegIndex → Result) : withRegs a b s k = k ra rb := by
  rw [withRegs, withReg_some ha, withReg_some hb]

/-- Everything the two operand checks of F2RR can answer. -/
theorem withRegs_cases (a b : Byte) (s : State) (k : RegIndex → RegIndex → Result) :
    (∃ ra rb : RegIndex, a.toNat = ra.val ∧ b.toNat = rb.val ∧ withRegs a b s k = k ra rb) ∨
      (7 < a.toNat ∧ withRegs a b s k = .next (s.halt .badRegister a)) ∨
      (a.toNat ≤ 7 ∧ 7 < b.toNat ∧ withRegs a b s k = .next (s.halt .badRegister b)) := by
  rcases withReg_cases a s (fun ra => withReg b s fun rb => k ra rb) with ⟨ra, ha, h⟩ | h
  · rcases withReg_cases b s (k ra) with ⟨rb, hb, h'⟩ | ⟨hb, h'⟩
    · exact .inl ⟨ra, rb, ha, hb, h.trans h'⟩
    · exact .inr (.inr ⟨by omega, hb, h.trans h'⟩)
  · exact .inr (.inl h)

/-! ## The program counter -/

theorem nextPc_some {o : Opcode} {pc : Byte} (h : pc.toNat + o.length ≤ Config.pcMax) :
    nextPc o pc = some (trunc8 (pc.toNat + o.length)) := by simp [nextPc, h]

theorem nextPc_none {o : Opcode} {pc : Byte} (h : Config.pcMax < pc.toNat + o.length) : nextPc o pc = none := by
  simp [nextPc, Nat.not_le.2 h]

/-- The sum is the next pc itself: it never wraps (R18). -/
theorem nextPc_toNat {o : Opcode} {pc p : Byte} (h : nextPc o pc = some p) : p.toNat = pc.toNat + o.length := by
  unfold nextPc at h
  split at h
  · next hle => cases h; simp only [trunc8_toNat, Config.pcMax] at *; omega
  · cases h

theorem fallThrough_fits {o : Opcode} {s : State} (h : s.pc.toNat + o.length ≤ Config.pcMax) (s' : State) :
    fallThrough o s s' = .next (s'.setPc (trunc8 (s.pc.toNat + o.length))) := by
  simp [fallThrough, nextPc_some h]

theorem fallThrough_overflows {o : Opcode} {s : State} (h : Config.pcMax < s.pc.toNat + o.length) (s' : State) :
    fallThrough o s s' = .next (s.halt .pcOverflow 0) := by
  simp [fallThrough, nextPc_none h, raiseFault_eq]

/-- Everything a fall-through can answer. -/
theorem fallThrough_cases (o : Opcode) (s s' : State) :
    (s.pc.toNat + o.length ≤ Config.pcMax ∧
        fallThrough o s s' = .next (s'.setPc (trunc8 (s.pc.toNat + o.length)))) ∨
      (Config.pcMax < s.pc.toNat + o.length ∧ fallThrough o s s' = .next (s.halt .pcOverflow 0)) := by
  rcases Nat.lt_or_ge Config.pcMax (s.pc.toNat + o.length) with h | h
  · exact .inr ⟨h, fallThrough_overflows h s'⟩
  · exact .inl ⟨h, fallThrough_fits h s'⟩

/-! ## The stack -/

variable (s : State) (v : Byte)

@[simp] theorem pushByte_pc : (s.pushByte v).pc = s.pc := rfl
@[simp] theorem pushByte_fl : (s.pushByte v).fl = s.fl := rfl
@[simp] theorem pushByte_status : (s.pushByte v).status = s.status := rfl
@[simp] theorem pushByte_cause : (s.pushByte v).cause = s.cause := rfl
@[simp] theorem pushByte_info : (s.pushByte v).info = s.info := rfl
@[simp] theorem pushByte_out : (s.pushByte v).out = s.out := rfl
@[simp] theorem pushByte_mem : (s.pushByte v).mem = s.mem.write (s.reg 7 - 1) v := rfl

@[simp] theorem pushByte_reg (q : RegIndex) :
    (s.pushByte v).reg q = if q = 7 then s.reg 7 - 1 else s.reg q := by
  simp [State.pushByte, Config.spIndex]

@[simp] theorem pushByte_readByte (a : Byte) :
    (s.pushByte v).readByte a = if a = s.reg 7 - 1 then v else s.readByte a := by
  simp [State.pushByte, Config.spIndex]

@[simp] theorem topByte_eq : s.topByte = s.readByte (s.reg 7) := rfl

@[simp] theorem dropByte_eq : s.dropByte = s.setReg 7 (s.reg 7 + 1) := rfl

end Sys2Proof.Machine
end

