-- ==== Sys2Proof/Laws/Alu.lean ====
section
/-! SUPPORT. The ALU's pure functions as integers, and everything an ALU meaning can answer. -/

namespace Sys2Proof.Machine

@[simp] theorem aluAdd_toNat (x y : Byte) : (aluAdd x y).toNat = (x.toNat + y.toNat) % 256 := trunc8_toNat _
@[simp] theorem aluMul_toNat (x y : Byte) : (aluMul x y).toNat = (x.toNat * y.toNat) % 256 := trunc8_toNat _

/-- The remainder needs no truncation, also for a divisor of 0. -/
@[simp] theorem aluMod_toNat (x y : Byte) : (aluMod x y).toNat = x.toNat % y.toNat := by
  have h := Nat.mod_le x.toNat y.toNat
  have hx := x.isLt
  rw [aluMod, trunc8_toNat, Nat.mod_eq_of_lt (by omega)]

@[simp] theorem aluShl_toNat (x y : Byte) : (aluShl x y).toNat = (x.toNat * 2 ^ y.toNat) % 256 := trunc8_toNat _

@[simp] theorem aluShr_toNat (x y : Byte) : (aluShr x y).toNat = x.toNat / 2 ^ y.toNat := by
  have h := Nat.div_le_self x.toNat (2 ^ y.toNat)
  have hx := x.isLt
  rw [aluShr, trunc8_toNat, Nat.mod_eq_of_lt (by omega)]

/-- CMP leaves exactly one of the three flags (R80). -/
theorem compareFlags_cases (x y : Byte) :
    (x = y ∧ compareFlags x y = flagE) ∨ (y.toNat < x.toNat ∧ compareFlags x y = flagG) ∨
      (x.toNat < y.toNat ∧ compareFlags x y = flagL) := by
  unfold compareFlags
  split
  · next h => exact .inl ⟨BitVec.eq_of_toNat_eq h, rfl⟩
  · split
    · next h => exact .inr (.inl ⟨h, rfl⟩)
    · exact .inr (.inr ⟨by omega, rfl⟩)

theorem aluBinary_some {a b : Byte} {ra rb : RegIndex} (ha : a.toNat = ra.val) (hb : b.toNat = rb.val) (o : Opcode)
    (f : Byte → Byte → Byte) (s : State) :
    aluBinary o f a b s = fallThrough o s (s.setReg ra (f (s.reg ra) (s.reg rb))) :=
  withRegs_some ha hb s _

end Sys2Proof.Machine
end

