-- ==== Sys2Proof/Laws/Exec.lean ====
section
/-! SUPPORT. The inversion lemmas of `exec` and `step`: a fault that changes the halt record alone, with the condition that raises
it, or the instruction's own effect, with the conditions under which it completes. Every claim over all
instructions starts from them. -/

namespace Sys2Proof.Machine

/-- The instruction falls through to `t`, which is `s'` with pc moved on (R64). -/
def FallsThroughTo (o : Opcode) (s s' t : State) : Prop :=
  s.pc.toNat + o.length ≤ Config.pcMax ∧ t = s'.setPc (trunc8 (s.pc.toNat + o.length))

/-- The shape of the two-register instructions that write `x[a]`. -/
def BinaryCompletes (o : Opcode) (f : Byte → Byte → Byte) (a b : Byte) (s t : State) : Prop :=
  ∃ ra rb : RegIndex, a.toNat = ra.val ∧ b.toNat = rb.val ∧
    FallsThroughTo o s (s.setReg ra (f (s.reg ra) (s.reg rb))) t

/-- What a completed instruction leaves, and when it completes. -/
def Completes : Instr → State → State → Prop
  | .halt, s, t => t = s.halt .halt 0
  | .loadImmediate a imm, s, t =>
    ∃ ra : RegIndex, a.toNat = ra.val ∧ FallsThroughTo .loadImmediate s (s.setReg ra imm) t
  | .printReg a, s, t => ∃ ra : RegIndex, a.toNat = ra.val ∧ FallsThroughTo .printReg s (s.emit (s.reg ra)) t
  | .add a b, s, t => BinaryCompletes .add aluAdd a b s t
  | .mul a b, s, t => BinaryCompletes .mul aluMul a b s t
  | .mod a b, s, t =>
    ∃ ra rb : RegIndex, a.toNat = ra.val ∧ b.toNat = rb.val ∧ s.reg rb ≠ 0 ∧
      FallsThroughTo .mod s (s.setReg ra (aluMod (s.reg ra) (s.reg rb))) t
  | .cmp a b, s, t =>
    ∃ ra rb : RegIndex, a.toNat = ra.val ∧ b.toNat = rb.val ∧
      FallsThroughTo .cmp s (s.setFl (compareFlags (s.reg ra) (s.reg rb))) t
  | .and a b, s, t => BinaryCompletes .and aluAnd a b s t
  | .not a, s, t =>
    ∃ ra : RegIndex, a.toNat = ra.val ∧ FallsThroughTo .not s (s.setReg ra (aluNot (s.reg ra))) t
  | .or a b, s, t => BinaryCompletes .or aluOr a b s t
  | .xor a b, s, t => BinaryCompletes .xor aluXor a b s t
  | .shl a b, s, t => BinaryCompletes .shl aluShl a b s t
  | .shr a b, s, t => BinaryCompletes .shr aluShr a b s t
  | .push a, s, t => ∃ ra : RegIndex, a.toNat = ra.val ∧ FallsThroughTo .push s (s.pushByte (s.reg ra)) t
  | .pop a, s, t =>
    ∃ ra : RegIndex, a.toNat = ra.val ∧ FallsThroughTo .pop s (s.dropByte.setReg ra s.topByte) t
  | .call a, s, t =>
    ∃ ra : RegIndex, a.toNat = ra.val ∧ s.pc.toNat + Opcode.call.length ≤ Config.pcMax ∧
      t = (s.pushByte (trunc8 (s.pc.toNat + Opcode.call.length))).setPc (s.reg ra)
  | .ret, s, t => t = s.dropByte.setPc s.topByte
  | .jmp a, s, t => ∃ ra : RegIndex, a.toNat = ra.val ∧ t = s.setPc (s.reg ra)
  | .jeq a, s, t =>
    ∃ ra : RegIndex, a.toNat = ra.val ∧
      ((equalBit s.fl = true ∧ t = s.setPc (s.reg ra)) ∨ (equalBit s.fl = false ∧ FallsThroughTo .jeq s s t))
  | .jne a, s, t =>
    ∃ ra : RegIndex, a.toNat = ra.val ∧
      ((equalBit s.fl = false ∧ t = s.setPc (s.reg ra)) ∨ (equalBit s.fl = true ∧ FallsThroughTo .jne s s t))

/-- When the instruction raises a fault, and with which information byte (R95). -/
def FaultCondition (i : Instr) (s : State) (c : HaltCause) (info : Byte) : Prop :=
  (c = .badRegister ∧ i.regOperands.find? (fun r => decide (7 < r.toNat)) = some info) ∨
  (c = .divByZero ∧ info = 0 ∧
    ∃ (a b : Byte) (rb : RegIndex), i = .mod a b ∧ a.toNat ≤ 7 ∧ b.toNat = rb.val ∧ s.reg rb = 0) ∨
  (c = .pcOverflow ∧ info = 0 ∧ (∀ r ∈ i.regOperands, r.toNat ≤ 7) ∧
    (∀ (a b : Byte) (rb : RegIndex), i = .mod a b → b.toNat = rb.val → s.reg rb ≠ 0) ∧
    needsNextPc i.opcode s.fl = true ∧ Config.pcMax < s.pc.toNat + i.opcode.length)

theorem FaultCondition.isFault {i : Instr} {s : State} {c : HaltCause} {info : Byte}
    (h : FaultCondition i s c info) : c.isFault = true := by
  rcases h with ⟨rfl, -⟩ | ⟨rfl, -⟩ | ⟨rfl, -⟩ <;> rfl

/-- Everything an answer can be: a recorded fault whose condition `F` describes, or the state `P` describes. -/
def FaultOr (s : State) (F : HaltCause → Byte → Prop) (P : State → Prop) (answer : Result) : Prop :=
  (∃ c info, F c info ∧ answer = .next (s.halt c info)) ∨ ∃ t, answer = .next t ∧ P t

section

variable {s s' : State} {F : HaltCause → Byte → Prop} {P : State → Prop}

theorem faultOr_withReg {r : Byte} {k : RegIndex → Result} (hbad : 7 < r.toNat → F .badRegister r)
    (h : ∀ i : RegIndex, r.toNat = i.val → FaultOr s F P (k i)) : FaultOr s F P (withReg r s k) := by
  rcases withReg_cases r s k with ⟨i, hi, he⟩ | ⟨hb, he⟩
  · exact he ▸ h i hi
  · exact .inl ⟨_, _, hbad hb, he⟩

theorem faultOr_withRegs {a b : Byte} {k : RegIndex → RegIndex → Result} (hbadA : 7 < a.toNat → F .badRegister a)
    (hbadB : a.toNat ≤ 7 → 7 < b.toNat → F .badRegister b)
    (h : ∀ ra rb : RegIndex, a.toNat = ra.val → b.toNat = rb.val → FaultOr s F P (k ra rb)) :
    FaultOr s F P (withRegs a b s k) :=
  faultOr_withReg hbadA fun ra ha =>
    faultOr_withReg (hbadB (by have := ra.isLt; omega)) fun rb hb => h ra rb ha hb

theorem faultOr_fallThrough {o : Opcode} (hover : Config.pcMax < s.pc.toNat + o.length → F .pcOverflow 0)
    (h : ∀ t, FallsThroughTo o s s' t → P t) : FaultOr s F P (fallThrough o s s') := by
  rcases fallThrough_cases o s s' with ⟨hle, he⟩ | ⟨hlt, he⟩
  · exact .inr ⟨_, he, h _ ⟨hle, rfl⟩⟩
  · exact .inl ⟨_, _, hover hlt, he⟩

end

/-- The BAD_REGISTER condition of a one-operand instruction. -/
theorem faultCondition_bad {i : Instr} {s : State} {a : Byte} {more : List Byte} (hi : i.regOperands = a :: more)
    (h : 7 < a.toNat) : FaultCondition i s .badRegister a := .inl ⟨rfl, by simp [hi, h]⟩

/-- The BAD_REGISTER condition of a second operand. -/
theorem faultCondition_bad' {i : Instr} {s : State} {a b : Byte} (hi : i.regOperands = [a, b])
    (ha : a.toNat ≤ 7) (h : 7 < b.toNat) : FaultCondition i s .badRegister b :=
  .inl ⟨rfl, by simp [hi, h, Nat.not_lt.2 ha]⟩

/-- The PC_OVERFLOW condition of an instruction other than MOD. -/
theorem faultCondition_over {i : Instr} {s : State} {o : Opcode} (ho : i.opcode = o) (hm : o ≠ .mod)
    (hr : ∀ r ∈ i.regOperands, r.toNat ≤ 7) (hn : needsNextPc o s.fl = true)
    (h : Config.pcMax < s.pc.toNat + o.length) : FaultCondition i s .pcOverflow 0 := by
  subst ho
  exact .inr (.inr ⟨rfl, rfl, hr, fun _ _ _ hi => absurd (hi ▸ rfl) hm, hn, h⟩)

theorem legal_of_eq {r : Byte} {i : RegIndex} (h : r.toNat = i.val) : r.toNat ≤ 7 := by have := i.isLt; omega

/-- A two-register instruction other than MOD, whose meaning is `aluBinary`. -/
theorem aluBinary_cases {i : Instr} {a b : Byte} {o : Opcode} (hi : i.regOperands = [a, b]) (ho : i.opcode = o)
    (hm : o ≠ .mod) {s : State} (hn : needsNextPc o s.fl = true) (f : Byte → Byte → Byte) :
    FaultOr s (FaultCondition i s) (BinaryCompletes o f a b s) (aluBinary o f a b s) :=
  faultOr_withRegs (faultCondition_bad hi) (faultCondition_bad' hi) fun ra rb ha hb =>
    faultOr_fallThrough
      (faultCondition_over ho hm (by simp [hi, legal_of_eq ha, legal_of_eq hb]) hn)
      fun _ ht => ⟨ra, rb, ha, hb, ht⟩

/-- Everything `exec` can answer. -/
theorem exec_cases (i : Instr) (s : State) : FaultOr s (FaultCondition i s) (Completes i s) (exec i s) := by
  cases i with
  | halt => exact .inr ⟨_, rfl, rfl⟩
  | ret => exact .inr ⟨_, rfl, rfl⟩
  | add a b => exact aluBinary_cases (o := .add) rfl rfl nofun rfl aluAdd
  | mul a b => exact aluBinary_cases (o := .mul) rfl rfl nofun rfl aluMul
  | and a b => exact aluBinary_cases (o := .and) rfl rfl nofun rfl aluAnd
  | or a b => exact aluBinary_cases (o := .or) rfl rfl nofun rfl aluOr
  | xor a b => exact aluBinary_cases (o := .xor) rfl rfl nofun rfl aluXor
  | shl a b => exact aluBinary_cases (o := .shl) rfl rfl nofun rfl aluShl
  | shr a b => exact aluBinary_cases (o := .shr) rfl rfl nofun rfl aluShr
  | loadImmediate a imm =>
    exact faultOr_withReg (faultCondition_bad rfl) fun ra ha => faultOr_fallThrough
      (faultCondition_over rfl nofun (by simp [Instr.regOperands, legal_of_eq ha]) rfl)
      fun _ ht => ⟨ra, ha, ht⟩
  | printReg a =>
    exact faultOr_withReg (faultCondition_bad rfl) fun ra ha => faultOr_fallThrough
      (faultCondition_over rfl nofun (by simp [Instr.regOperands, legal_of_eq ha]) rfl)
      fun _ ht => ⟨ra, ha, ht⟩
  | not a =>
    exact faultOr_withReg (faultCondition_bad rfl) fun ra ha => faultOr_fallThrough
      (faultCondition_over rfl nofun (by simp [Instr.regOperands, legal_of_eq ha]) rfl)
      fun _ ht => ⟨ra, ha, ht⟩
  | push a =>
    exact faultOr_withReg (faultCondition_bad rfl) fun ra ha => faultOr_fallThrough
      (faultCondition_over rfl nofun (by simp [Instr.regOperands, legal_of_eq ha]) rfl)
      fun _ ht => ⟨ra, ha, ht⟩
  | pop a =>
    exact faultOr_withReg (faultCondition_bad rfl) fun ra ha => faultOr_fallThrough
      (faultCondition_over rfl nofun (by simp [Instr.regOperands, legal_of_eq ha]) rfl)
      fun _ ht => ⟨ra, ha, ht⟩
  | cmp a b =>
    exact faultOr_withRegs (faultCondition_bad rfl) (faultCondition_bad' rfl) fun ra rb ha hb =>
      faultOr_fallThrough
        (faultCondition_over rfl nofun (by simp [Instr.regOperands, legal_of_eq ha, legal_of_eq hb]) rfl)
        fun _ ht => ⟨ra, rb, ha, hb, ht⟩
  | mod a b =>
    refine faultOr_withRegs (faultCondition_bad rfl) (faultCondition_bad' rfl) fun ra rb ha hb => ?_
    by_cases h0 : s.reg rb = 0
    · simp only [h0, if_true]
      exact .inl ⟨_, _, .inr (.inl ⟨rfl, rfl, a, b, rb, rfl, legal_of_eq ha, hb, h0⟩), rfl⟩
    · simp only [h0, if_false]
      refine faultOr_fallThrough (fun h => .inr (.inr ⟨rfl, rfl, ?_, ?_, show needsNextPc .mod s.fl = true from rfl, h⟩)) fun _ ht => ⟨ra, rb, ha, hb, h0, ht⟩
      · simp [Instr.regOperands, legal_of_eq ha, legal_of_eq hb]
      · rintro _ _ q ⟨⟩ hq
        rwa [show q = rb from Fin.ext (hq.symm.trans hb)]
  | call a =>
    refine faultOr_withReg (faultCondition_bad rfl) fun ra ha => ?_
    rcases Nat.lt_or_ge Config.pcMax (s.pc.toNat + Opcode.call.length) with h | h
    · simp only [nextPc_none h]
      exact .inl ⟨_, _, faultCondition_over (o := .call) rfl nofun (by simp [Instr.regOperands, legal_of_eq ha]) rfl h, rfl⟩
    · simp only [nextPc_some h]; exact .inr ⟨_, rfl, ra, ha, h, rfl⟩
  | jmp a => exact faultOr_withReg (faultCondition_bad rfl) fun ra ha => .inr ⟨_, rfl, ra, ha, rfl⟩
  | jeq a =>
    refine faultOr_withReg (faultCondition_bad rfl) fun ra ha => ?_
    cases he : equalBit s.fl
    · simp only [Bool.false_eq_true, if_false]
      exact faultOr_fallThrough
        (faultCondition_over rfl nofun (by simp [Instr.regOperands, legal_of_eq ha])
          (by simp [needsNextPc, he]))
        fun _ ht => ⟨ra, ha, .inr ⟨he, ht⟩⟩
    · simp only [if_true]; exact .inr ⟨_, rfl, ra, ha, .inl ⟨he, rfl⟩⟩
  | jne a =>
    refine faultOr_withReg (faultCondition_bad rfl) fun ra ha => ?_
    cases he : equalBit s.fl
    · simp only [if_true]; exact .inr ⟨_, rfl, ra, ha, .inl ⟨he, rfl⟩⟩
    · simp only [Bool.true_eq_false, if_false]
      exact faultOr_fallThrough
        (faultCondition_over rfl nofun (by simp [Instr.regOperands, legal_of_eq ha])
          (by simp [needsNextPc, he]))
        fun _ ht => ⟨ra, ha, .inr ⟨he, ht⟩⟩

/-- The same, of a next state that is at hand. -/
theorem exec_next {i : Instr} {s t : State} (h : exec i s = .next t) :
    (∃ c info, FaultCondition i s c info ∧ t = s.halt c info) ∨ Completes i s t := by
  rcases exec_cases i s with ⟨c, info, hc, he⟩ | ⟨u, he, hu⟩
  · cases h.symm.trans he; exact .inl ⟨c, info, hc, rfl⟩
  · cases h.symm.trans he; exact .inr hu

/-! ## The conditions decide the answer -/

theorem fallThrough_of {o : Opcode} {s s' t : State} (h : FallsThroughTo o s s' t) : fallThrough o s s' = .next t :=
  h.2 ▸ fallThrough_fits h.1 s'

theorem aluBinary_of {o : Opcode} {f : Byte → Byte → Byte} {a b : Byte} {s t : State}
    (h : BinaryCompletes o f a b s t) : aluBinary o f a b s = .next t := by
  obtain ⟨ra, rb, ha, hb, h⟩ := h
  exact (withRegs_some ha hb s _).trans (fallThrough_of h)

/-- Where the conditions of completion hold, the answer is the completed state. -/
theorem exec_of_completes {i : Instr} {s t : State} (h : Completes i s t) : exec i s = .next t := by
  cases i with
  | halt => exact h ▸ rfl
  | ret => exact h ▸ rfl
  | add a b => exact aluBinary_of h
  | mul a b => exact aluBinary_of h
  | and a b => exact aluBinary_of h
  | or a b => exact aluBinary_of h
  | xor a b => exact aluBinary_of h
  | shl a b => exact aluBinary_of h
  | shr a b => exact aluBinary_of h
  | loadImmediate a imm => obtain ⟨ra, ha, h⟩ := h; exact (withReg_some ha s _).trans (fallThrough_of h)
  | printReg a => obtain ⟨ra, ha, h⟩ := h; exact (withReg_some ha s _).trans (fallThrough_of h)
  | not a => obtain ⟨ra, ha, h⟩ := h; exact (withReg_some ha s _).trans (fallThrough_of h)
  | push a => obtain ⟨ra, ha, h⟩ := h; exact (withReg_some ha s _).trans (fallThrough_of h)
  | pop a => obtain ⟨ra, ha, h⟩ := h; exact (withReg_some ha s _).trans (fallThrough_of h)
  | cmp a b => obtain ⟨ra, rb, ha, hb, h⟩ := h; exact (withRegs_some ha hb s _).trans (fallThrough_of h)
  | mod a b =>
    obtain ⟨ra, rb, ha, hb, h0, h⟩ := h
    exact (withRegs_some ha hb s _).trans ((if_neg h0).trans (fallThrough_of h))
  | call a =>
    obtain ⟨ra, ha, hle, rfl⟩ := h
    exact (withReg_some ha s _).trans (by rw [nextPc_some hle])
  | jmp a => obtain ⟨ra, ha, rfl⟩ := h; exact withReg_some ha s _
  | jeq a =>
    obtain ⟨ra, ha, ⟨he, rfl⟩ | ⟨he, h⟩⟩ := h
    · exact (withReg_some ha s _).trans (if_pos he)
    · exact (withReg_some ha s _).trans ((if_neg (by simp [he])).trans (fallThrough_of h))
  | jne a =>
    obtain ⟨ra, ha, ⟨he, rfl⟩ | ⟨he, h⟩⟩ := h
    · exact (withReg_some ha s _).trans (if_pos he)
    · exact (withReg_some ha s _).trans ((if_neg (by simp [he])).trans (fallThrough_of h))

/-- A completed instruction had legal register operands. -/
theorem Completes.legal {i : Instr} {s t : State} (h : Completes i s t) : ∀ r ∈ i.regOperands, r.toNat ≤ 7 := by
  cases i <;> simp only [Completes, BinaryCompletes] at h <;>
    simp only [Instr.regOperands, List.mem_cons, List.not_mem_nil, or_false, forall_eq_or_imp, forall_eq, false_imp_iff,
      implies_true]
  all_goals first
    | (obtain ⟨_, h, _⟩ := h; exact legal_of_eq h)
    | (obtain ⟨_, _, h1, h2, _⟩ := h; exact ⟨legal_of_eq h1, legal_of_eq h2⟩)

/-- A completed instruction that needed `pc + len` had room for it. -/
theorem Completes.fits {i : Instr} {s t : State} (h : Completes i s t) (hn : needsNextPc i.opcode s.fl = true) :
    s.pc.toNat + i.opcode.length ≤ Config.pcMax := by
  cases i <;> simp only [Completes, BinaryCompletes, FallsThroughTo] at h
  case halt => exact absurd hn (by simp [needsNextPc, Instr.opcode])
  case ret => exact absurd hn (by simp [needsNextPc, Instr.opcode, Opcode.setsPc, Opcode.byte, pcSetBit])
  case jmp => exact absurd hn (by simp [needsNextPc, Instr.opcode, Opcode.setsPc, Opcode.byte, pcSetBit])
  case jeq =>
    obtain ⟨_, _, ⟨he, -⟩ | ⟨_, h, -⟩⟩ := h
    · exact absurd hn (by simp [needsNextPc, Instr.opcode, Opcode.setsPc, Opcode.byte, pcSetBit, he])
    · exact h
  case jne =>
    obtain ⟨_, _, ⟨he, -⟩ | ⟨_, h, -⟩⟩ := h
    · exact absurd hn (by simp [needsNextPc, Instr.opcode, Opcode.setsPc, Opcode.byte, pcSetBit, he])
    · exact h
  case mod => exact h.choose_spec.choose_spec.2.2.2.1
  all_goals first
    | (obtain ⟨_, _, h, -⟩ := h; exact h)
    | (obtain ⟨_, _, _, _, h, -⟩ := h; exact h)

/-- No instruction both meets a fault's condition and completes. -/
theorem FaultCondition.not_completes {i : Instr} {s t : State} {c : HaltCause} {info : Byte}
    (h : FaultCondition i s c info) : ¬ Completes i s t := by
  intro hc
  rcases h with ⟨-, hf⟩ | ⟨-, -, a, b, rb, rfl, -, hb, h0⟩ | ⟨-, -, -, -, hn, hlt⟩
  · have h7 : 7 < info.toNat := by simpa using List.find?_some hf
    exact absurd (hc.legal _ (List.mem_of_find?_eq_some hf)) (Nat.not_le.2 h7)
  · obtain ⟨_, q, _, hq, hne, _⟩ := hc
    exact hne ((show rb = q from Fin.ext (hb.symm.trans hq)) ▸ h0)
  · exact absurd (hc.fits hn) (Nat.not_le.2 hlt)

/-- At most one fault's condition holds, with one information byte (R100). -/
theorem FaultCondition.unique {i : Instr} {s : State} {c c' : HaltCause} {info info' : Byte}
    (h : FaultCondition i s c info) (h' : FaultCondition i s c' info') : c = c' ∧ info = info' := by
  have bad : ∀ {v : Byte}, i.regOperands.find? (fun r => decide (7 < r.toNat)) = some v →
      ¬ ∀ r ∈ i.regOperands, r.toNat ≤ 7 := fun hf hr =>
    absurd (hr _ (List.mem_of_find?_eq_some hf)) (Nat.not_le.2 (by simpa using List.find?_some hf))
  have div : ∀ {a b : Byte} {rb : RegIndex}, i = .mod a b → a.toNat ≤ 7 → b.toNat = rb.val →
      ∀ r ∈ i.regOperands, r.toNat ≤ 7 := by
    rintro a b rb rfl ha hb
    simp [Instr.regOperands, ha, legal_of_eq hb]
  rcases h with ⟨rfl, hf⟩ | ⟨rfl, rfl, a, b, rb, hi, ha, hb, h0⟩ | ⟨rfl, rfl, hr, hm, _⟩ <;>
    rcases h' with ⟨rfl, hf'⟩ | ⟨rfl, rfl, a', b', rb', hi', ha', hb', h0'⟩ | ⟨rfl, rfl, hr', hm', _⟩
  · exact ⟨rfl, Option.some.inj (hf.symm.trans hf')⟩
  · exact absurd (div hi' ha' hb') (bad hf)
  · exact absurd hr' (bad hf)
  · exact absurd (div hi ha hb) (bad hf')
  · exact ⟨rfl, rfl⟩
  · exact absurd h0 (hm' a b rb hi hb)
  · exact absurd hr (bad hf')
  · exact absurd h0' (hm a' b' rb' hi' hb')
  · exact ⟨rfl, rfl⟩

/-- Where a fault's condition holds, the answer is that fault. -/
theorem exec_of_fault {i : Instr} {s : State} {c : HaltCause} {info : Byte} (h : FaultCondition i s c info) :
    exec i s = .next (s.halt c info) := by
  rcases exec_cases i s with ⟨c', info', h', he⟩ | ⟨t, -, hc⟩
  · obtain ⟨rfl, rfl⟩ := h.unique h'; exact he
  · exact absurd hc h.not_completes

/-! ## The step -/

/-- Everything a step can be: nothing when HALTED, the decoded instruction's meaning, or ILLEGAL_OPCODE. -/
theorem step_cases (s : State) :
    (s.status = .halted ∧ step s = .next s) ∨
      (s.status = .running ∧ ∃ o : Opcode, Opcode.ofByte (fetch s).1 = some o ∧
        step s = exec (o.instr (fetch s).2.1 (fetch s).2.2) s) ∨
      (s.status = .running ∧ Opcode.ofByte (fetch s).1 = none ∧
        step s = .next (s.halt .illegalOpcode (fetch s).1)) := by
  cases hs : s.status with
  | halted => exact .inl ⟨rfl, by simp only [step, hs, haltedStep_eq]⟩
  | running =>
    cases ho : Opcode.ofByte (fetch s).1 with
    | some o => exact .inr (.inl ⟨rfl, o, rfl, by simp only [step, hs, decode_of_some ho]⟩)
    | none => exact .inr (.inr ⟨rfl, rfl, by simp only [step, hs, decode_of_none ho, raiseFault_eq]⟩)

/-- One step of the host's run. -/
theorem run_of_step {k : Nat} {s u : State} (h : step s = .next u) : core.run (k + 1) s = core.run k u := by
  have h' : core.step s = .next u := h
  simp only [Host.Core.run, h']

end Sys2Proof.Machine
end

