-- ==== Sys2Proof/Laws/PerInstr.lean ====
section
/-! SUPPORT. Two families of facts about every instruction as syntax, one lemma per constructor. `Length`: R44's length, read
from the opcode byte, is the number of bytes of the encoding. `Shape`: the encoding has the shape R47 gives
the opcode's format, with the register operands first. -/

namespace Sys2Proof.Laws

/-- R44. -/
def Length.Statement (i : Instr) : Prop := (encode i).length = lengthOfByte i.opcode.byte

/-- R47: the operand bytes by format. -/
def Shape.Statement (i : Instr) : Prop :=
  match i.opcode.format with
  | .f0   => i.operandBytes = [] ∧ i.regOperands = []
  | .f1r  => ∃ a, i.operandBytes = [a] ∧ i.regOperands = [a]
  | .f2rr => ∃ a b, i.operandBytes = [a, b] ∧ i.regOperands = [a, b]
  | .f2ri => ∃ a imm, i.operandBytes = [a, imm] ∧ i.regOperands = [a]

theorem Length.halt : Length.Statement .halt := (length_of_format .halt).symm
theorem Length.loadImmediate (a imm : Byte) : Length.Statement (.loadImmediate a imm) := (length_of_format .loadImmediate).symm
theorem Length.printReg (a : Byte) : Length.Statement (.printReg a) := (length_of_format .printReg).symm
theorem Length.add (a b : Byte) : Length.Statement (.add a b) := (length_of_format .add).symm
theorem Length.mul (a b : Byte) : Length.Statement (.mul a b) := (length_of_format .mul).symm
theorem Length.mod (a b : Byte) : Length.Statement (.mod a b) := (length_of_format .mod).symm
theorem Length.cmp (a b : Byte) : Length.Statement (.cmp a b) := (length_of_format .cmp).symm
theorem Length.and (a b : Byte) : Length.Statement (.and a b) := (length_of_format .and).symm
theorem Length.not (a : Byte) : Length.Statement (.not a) := (length_of_format .not).symm
theorem Length.or (a b : Byte) : Length.Statement (.or a b) := (length_of_format .or).symm
theorem Length.xor (a b : Byte) : Length.Statement (.xor a b) := (length_of_format .xor).symm
theorem Length.shl (a b : Byte) : Length.Statement (.shl a b) := (length_of_format .shl).symm
theorem Length.shr (a b : Byte) : Length.Statement (.shr a b) := (length_of_format .shr).symm
theorem Length.push (a : Byte) : Length.Statement (.push a) := (length_of_format .push).symm
theorem Length.pop (a : Byte) : Length.Statement (.pop a) := (length_of_format .pop).symm
theorem Length.call (a : Byte) : Length.Statement (.call a) := (length_of_format .call).symm
theorem Length.ret : Length.Statement .ret := (length_of_format .ret).symm
theorem Length.jmp (a : Byte) : Length.Statement (.jmp a) := (length_of_format .jmp).symm
theorem Length.jeq (a : Byte) : Length.Statement (.jeq a) := (length_of_format .jeq).symm
theorem Length.jne (a : Byte) : Length.Statement (.jne a) := (length_of_format .jne).symm

theorem Shape.halt : Shape.Statement .halt := ⟨rfl, rfl⟩
theorem Shape.loadImmediate (a imm : Byte) : Shape.Statement (.loadImmediate a imm) := ⟨a, imm, rfl, rfl⟩
theorem Shape.printReg (a : Byte) : Shape.Statement (.printReg a) := ⟨a, rfl, rfl⟩
theorem Shape.add (a b : Byte) : Shape.Statement (.add a b) := ⟨a, b, rfl, rfl⟩
theorem Shape.mul (a b : Byte) : Shape.Statement (.mul a b) := ⟨a, b, rfl, rfl⟩
theorem Shape.mod (a b : Byte) : Shape.Statement (.mod a b) := ⟨a, b, rfl, rfl⟩
theorem Shape.cmp (a b : Byte) : Shape.Statement (.cmp a b) := ⟨a, b, rfl, rfl⟩
theorem Shape.and (a b : Byte) : Shape.Statement (.and a b) := ⟨a, b, rfl, rfl⟩
theorem Shape.not (a : Byte) : Shape.Statement (.not a) := ⟨a, rfl, rfl⟩
theorem Shape.or (a b : Byte) : Shape.Statement (.or a b) := ⟨a, b, rfl, rfl⟩
theorem Shape.xor (a b : Byte) : Shape.Statement (.xor a b) := ⟨a, b, rfl, rfl⟩
theorem Shape.shl (a b : Byte) : Shape.Statement (.shl a b) := ⟨a, b, rfl, rfl⟩
theorem Shape.shr (a b : Byte) : Shape.Statement (.shr a b) := ⟨a, b, rfl, rfl⟩
theorem Shape.push (a : Byte) : Shape.Statement (.push a) := ⟨a, rfl, rfl⟩
theorem Shape.pop (a : Byte) : Shape.Statement (.pop a) := ⟨a, rfl, rfl⟩
theorem Shape.call (a : Byte) : Shape.Statement (.call a) := ⟨a, rfl, rfl⟩
theorem Shape.ret : Shape.Statement .ret := ⟨rfl, rfl⟩
theorem Shape.jmp (a : Byte) : Shape.Statement (.jmp a) := ⟨a, rfl, rfl⟩
theorem Shape.jeq (a : Byte) : Shape.Statement (.jeq a) := ⟨a, rfl, rfl⟩
theorem Shape.jne (a : Byte) : Shape.Statement (.jne a) := ⟨a, rfl, rfl⟩

end Sys2Proof.Laws
end

