-- ==== Sys2Proof/Tests/Slice0.lean ====
section
/-! SUPPORT. Tests. Expected values come from spec/95_test_vectors.md (the row is named), from the rules' own examples, or are
worked out by hand from the rule named. `test_` theorems compare one step with the spec; `witness_` theorems meet the
hypotheses of an obligation, each clause at a boundary of its range. -/

namespace Sys2Proof.Tests

open Sys2Proof.Machine Sys2Proof.Spec

/-- A RUNNING state at `pc` with R0..R3, SP and FL, and every other part as reset leaves it. -/
def st (pc x0 x1 x2 x3 : Byte) (sp : Byte := 0xF4) (fl : Byte := 0) : State :=
  { State.reset with pc := pc, fl := fl, regs := #v[x0, x1, x2, x3, 0, 0, 0, sp] }

/-- The same with bytes stored from address `a` on. -/
def withBytes (s : State) (a : Byte) (bytes : List Byte) : State := storeBytes s a bytes

/-- What a next state shows. -/
def seen {α : Type} (answer : Result) (f : State → α) : Option α :=
  match answer with
  | .next t => some (f t)
  | .fault _ => none
  | .refused _ => none

/-- The record of a halt, with pc. -/
def record (t : State) : RunStatus × HaltCause × Byte × Byte := (t.status, t.cause, t.info, t.pc)

/-- The answer is a fault that left everything else as it was (R93). -/
def faultsAs (s : State) (c : HaltCause) (info : Byte) (answer : Result) : Bool :=
  seen answer (fun t => decide (t = s.halt c info)) = some true

/-! ## WellFormed: one ill-formed term for each check -/

theorem test_wellFormed_refuses_first_operand :
    [Instr.loadImmediate 8 0, .printReg 8, .add 8 0, .mul 9 0, .mod 255 0, .cmp 8 0, .and 8 0, .not 8, .or 8 0, .xor 8 0,
      .shl 8 0, .shr 8 0, .push 8, .pop 8, .call 8, .jmp 8, .jeq 8, .jne 8].all (fun i => !i.wellFormed) = true := by decide

theorem test_wellFormed_refuses_second_operand :
    [Instr.add 7 8, .mul 7 8, .mod 7 255, .cmp 7 8, .and 7 8, .or 7 8, .xor 7 8, .shl 7 8, .shr 7 8].all
      (fun i => !i.wellFormed) = true := by decide

theorem test_wellFormed_accepts :
    [Instr.halt, .ret, .loadImmediate 7 255, .add 7 7, .not 7, .push 7].all (fun i => i.wellFormed) = true := by decide

/-! ## Decode: words written out from R50 and R47 -/

theorem test_decode_basic :
    decode 0b00000001 0xFF 0xFF = .ok .halt ∧ decode 0b10000010 3 0xFF = .ok (.loadImmediate 3 0xFF) ∧
      decode 0b01000111 7 0xFF = .ok (.printReg 7) := by decide

theorem test_decode_arithmetic :
    decode 0b10100000 1 2 = .ok (.add 1 2) ∧ decode 0b10100010 1 2 = .ok (.mul 1 2) ∧
      decode 0b10100100 1 2 = .ok (.mod 1 2) ∧ decode 0b10100111 1 2 = .ok (.cmp 1 2) := by decide

theorem test_decode_bitwise :
    decode 0b10101000 1 2 = .ok (.and 1 2) ∧ decode 0b01101001 1 2 = .ok (.not 1) ∧
      decode 0b10101010 1 2 = .ok (.or 1 2) ∧ decode 0b10101011 1 2 = .ok (.xor 1 2) ∧
      decode 0b10101100 1 2 = .ok (.shl 1 2) ∧ decode 0b10101101 1 2 = .ok (.shr 1 2) := by decide

theorem test_decode_stack :
    decode 0b01000101 1 2 = .ok (.push 1) ∧ decode 0b01000110 1 2 = .ok (.pop 1) := by decide

theorem test_decode_control :
    decode 0b01010000 1 2 = .ok (.call 1) ∧ decode 0b00010001 1 2 = .ok .ret ∧ decode 0b01010100 1 2 = .ok (.jmp 1) ∧
      decode 0b01010101 1 2 = .ok (.jeq 1) ∧ decode 0b01010110 1 2 = .ok (.jne 1) := by decide

/-- R54's list of LS-8 bytes that this core does not recognize, and 0xC0, 0xFF (R46). -/
theorem test_decode_refuses :
    [(0x00 : Byte), 0xA1, 0xA3, 0x65, 0x66, 0x83, 0x84, 0x48, 0x52, 0x13, 0x57, 0x58, 0x59, 0x5A, 0xC0, 0xFF].all
      (fun ir => decide (decode ir 0 0 = .error (.illegalOpcode ir))) = true := by decide

theorem test_decodeTableWord :
    decodeTableWord 24 0x0201A0 = some (.add 1 2) ∧ decodeTableWord 8 0xFFFFA0 = some (.add 0 0) ∧
      decodeTableWord 8 0x00 = none := by decide

/-! ## Basic instructions -/

/-- S5, S18. -/
theorem test_halt : seen (exec .halt (st 0xFF 0 0 0 0)) record = some (.halted, .halt, 0, 0xFF) := by decide

/-- S2, S3, S6. -/
theorem witness_LoadImmediateWritesItsImmediate :
    seen (exec (.loadImmediate 7 0x80) (st 0xFC 0 0 0 0)) (fun t => (t.reg 7, t.pc)) = some (0x80, 0xFF) ∧
      faultsAs (st 0 0 0 0 0) .badRegister 8 (exec (.loadImmediate 8 1) (st 0 0 0 0 0)) = true ∧
      faultsAs (st 0xFD 0 0 0 0) .pcOverflow 0 (exec (.loadImmediate 0 7) (st 0xFD 0 0 0 0)) = true := by decide

/-- L4, L5, S4. -/
theorem witness_PrintRegEmitsItsRegister :
    seen (exec (.printReg 7) (st 0xFD 0 0 0 0)) (fun t => (t.out, t.pc)) = some ([244], 0xFF) ∧
      faultsAs (st 0 0 0 0 0) .badRegister 8 (exec (.printReg 8) (st 0 0 0 0 0)) = true ∧
      faultsAs (st 0xFE 0 0 0 0) .pcOverflow 0 (exec (.printReg 0) (st 0xFE 0 0 0 0)) = true := by decide

/-! ## ALU: the vectors of section 2.3, `x[0]` after the instruction -/

/-- The result in R0 of an instruction on R0 and R1. -/
def r0 (i : Instr) (x0 x1 : Byte) : Option Byte := seen (exec i (st 0 x0 x1 0 0)) (fun t => t.reg 0)

/-- A2, A3, A4. -/
theorem test_add : r0 (.add 0 1) 0xFF 0x01 = some 0x00 ∧ r0 (.add 0 1) 0xFF 0xFF = some 0xFE ∧
    r0 (.add 0 0) 0x81 0 = some 0x02 := by decide

/-- M1, M3, M4, M6. -/
theorem test_mul : r0 (.mul 0 1) 7 6 = some 0x2A ∧ r0 (.mul 0 1) 0xFF 0xFF = some 0x01 ∧
    r0 (.mul 0 1) 0x0F 0x11 = some 0xFF ∧ r0 (.mul 0 0) 0x0C 0 = some 0x90 := by decide

/-- D1, D2, D3, D7. -/
theorem test_mod : r0 (.mod 0 1) 17 5 = some 2 ∧ r0 (.mod 0 1) 5 17 = some 5 ∧ r0 (.mod 0 1) 0xFF 0x10 = some 0x0F ∧
    r0 (.mod 0 0) 9 0 = some 0 := by decide

/-- B1. -/
theorem test_and : r0 (.and 0 1) 0xF0 0x3C = some 0x30 := by decide

/-- B3. -/
theorem test_or : r0 (.or 0 1) 0xF0 0x0F = some 0xFF := by decide

/-- B5, B6. -/
theorem test_xor : r0 (.xor 0 1) 0xAA 0xFF = some 0x55 ∧ r0 (.xor 0 0) 0x5C 0 = some 0 := by decide

/-- N1, N2. -/
theorem test_not : r0 (.not 0) 0x00 0 = some 0xFF ∧ r0 (.not 0) 0x5A 0 = some 0xA5 := by decide

/-- H2, H3, H4, H6, H7. -/
theorem test_shl : r0 (.shl 0 1) 0x81 1 = some 0x02 ∧ r0 (.shl 0 1) 1 7 = some 0x80 ∧ r0 (.shl 0 1) 1 8 = some 0 ∧
    r0 (.shl 0 1) 0xFF 0xFF = some 0 ∧ r0 (.shl 0 0) 3 0 = some 0x18 := by decide

/-- H8, H9, H10, H12. -/
theorem test_shr : r0 (.shr 0 1) 0x80 7 = some 1 ∧ r0 (.shr 0 1) 0x80 8 = some 0 ∧ r0 (.shr 0 1) 0xFF 4 = some 0x0F ∧
    r0 (.shr 0 1) 0xFF 0xC8 = some 0 := by decide

/-- FL after CMP R0, R1 with FL = 0x04 before. -/
def flAfter (x0 x1 : Byte) : Option Byte := seen (exec (.cmp 0 1) (st 0 x0 x1 0 0 0xF4 4)) (fun t => t.fl)

/-- C1, C2, C4, C5, C7. -/
theorem test_cmp : flAfter 3 5 = some 4 ∧ flAfter 5 3 = some 2 ∧ flAfter 0 0xFF = some 4 ∧ flAfter 0x80 0x7F = some 2 ∧
    flAfter 1 1 = some 1 := by decide

/-- The four clauses that every F2RR rule has (R71 to R76, R78 to R80): complete at pc 0xFC with operands R7 and R0, bad
`opA` with bad `opB` (S7), bad `opB`, overflow at pc 0xFD. -/
def twoRegisterClauses (i : Byte → Byte → Instr) : Bool :=
  seen (exec (i 7 1) (st 0xFC 0 1 0 0)) (fun t => (t.status, t.pc)) = some (.running, 0xFF) &&
    faultsAs (st 0 0 0 0 0) .badRegister 9 (exec (i 9 10) (st 0 0 0 0 0)) &&
    faultsAs (st 0 0 0 0 0) .badRegister 8 (exec (i 7 8) (st 0 0 0 0 0)) &&
    faultsAs (st 0xFD 0 1 0 0) .pcOverflow 0 (exec (i 7 1) (st 0xFD 0 1 0 0))

theorem witness_AddWritesSumModulo256 : twoRegisterClauses .add = true := by decide
theorem witness_MulWritesLowByteOfProduct : twoRegisterClauses .mul = true := by decide
theorem witness_AndWritesBitwiseAnd : twoRegisterClauses .and = true := by decide
theorem witness_OrWritesBitwiseOr : twoRegisterClauses .or = true := by decide
theorem witness_XorWritesBitwiseXor : twoRegisterClauses .xor = true := by decide
theorem witness_ShlShiftsLeftByAnyAmount : twoRegisterClauses .shl = true := by decide
theorem witness_ShrShiftsRightByAnyAmount : twoRegisterClauses .shr = true := by decide
theorem witness_CmpSetsExactlyOneFlag : twoRegisterClauses .cmp = true := by decide

/-- MOD has one clause more: D6, and DIV_BY_ZERO goes before PC_OVERFLOW (R100). -/
theorem witness_ModWritesRemainderOrFaults : twoRegisterClauses .mod = true ∧
    faultsAs (st 0xFD 0x2A 0 0 0) .divByZero 0 (exec (.mod 0 1) (st 0xFD 0x2A 0 0 0)) = true := by decide

/-- The three clauses that every F1R rule with an advance has: complete at pc 0xFD, bad operand, overflow at pc 0xFE. -/
def oneRegisterClauses (i : Byte → Instr) : Bool :=
  (seen (exec (i 7) (st 0xFD 0 0 0 0)) (fun t => t.status) = some .running) &&
    faultsAs (st 0 0 0 0 0) .badRegister 8 (exec (i 8) (st 0 0 0 0 0)) &&
    faultsAs (st 0xFE 0 0 0 0) .pcOverflow 0 (exec (i 7) (st 0xFE 0 0 0 0))

theorem witness_NotWritesComplement : oneRegisterClauses .not = true := by decide

/-! ## Stack -/

/-- K1, K3, K5: SP and the stored byte. -/
theorem test_push :
    seen (exec (.push 0) (st 0 0x2A 0 0 0)) (fun t => (t.reg 7, t.readByte 0xF3)) = some (0xF3, 0x2A) ∧
      seen (exec (.push 0) (st 0 0x11 0 0 0 0x00)) (fun t => (t.reg 7, t.readByte 0xFF)) = some (0xFF, 0x11) ∧
      seen (exec (.push 7) (st 0 0 0 0 0)) (fun t => (t.reg 7, t.readByte 0xF3)) = some (0xF3, 0xF4) := by decide

theorem witness_PushDecrementsSpThenStores : oneRegisterClauses .push = true := by decide

/-- K2, K4, K6, K7: the register, SP and the byte left in memory. -/
theorem test_pop :
    seen (exec (.pop 1) (withBytes (st 0 0 0 0 0 0xF3) 0xF3 [0x2A])) (fun t => (t.reg 1, t.reg 7, t.readByte 0xF3)) =
        some (0x2A, 0xF4, 0x2A) ∧
      seen (exec (.pop 0) (withBytes (st 0 0 0 0 0 0xFF) 0xFF [0x11])) (fun t => (t.reg 0, t.reg 7)) = some (0x11, 0x00) ∧
      seen (exec (.pop 7) (withBytes (st 0 0 0 0 0 0xF3) 0xF3 [0x10])) (fun t => t.reg 7) = some 0x10 ∧
      seen (exec (.pop 0) (st 0 1 0 0 0)) (fun t => (t.reg 0, t.reg 7)) = some (0x00, 0xF5) := by decide

theorem witness_PopReadsThenIncrementsSp : oneRegisterClauses .pop = true := by decide

/-! ## Control transfer -/

/-- T1, T2, T4: pc, SP and the pushed return address. -/
theorem test_call :
    seen (exec (.call 1) (st 0x06 0 0x0B 0 0)) (fun t => (t.pc, t.reg 7, t.readByte 0xF3)) = some (0x0B, 0xF3, 0x08) ∧
      seen (exec (.call 1) (st 0xFD 0 0x20 0 0)) (fun t => (t.pc, t.reg 7, t.readByte 0xF3)) = some (0x20, 0xF3, 0xFF) ∧
      seen (exec (.call 7) (st 0x10 0 0 0 0)) (fun t => (t.pc, t.reg 7, t.readByte 0xF3)) = some (0xF4, 0xF3, 0x12) := by decide

/-- T3 and R62. -/
theorem witness_CallPushesReturnAddressAndJumps : oneRegisterClauses .call = true := by decide

/-- T5, T6, T7. -/
theorem test_ret :
    seen (exec .ret (withBytes (st 0 0 0 0 0 0xF3) 0xF3 [0x08])) (fun t => (t.pc, t.reg 7)) = some (0x08, 0xF4) ∧
      seen (exec .ret (st 0 0 0 0 0)) (fun t => (t.pc, t.reg 7)) = some (0x00, 0xF5) ∧
      seen (exec .ret (withBytes (st 0xFF 0 0 0 0 0xF3) 0xF3 [0x30])) (fun t => t.pc) = some 0x30 := by decide

/-- T8, T9, and a JMP at 0xFF; BAD_REGISTER. -/
theorem witness_JmpSetsPcToItsRegister :
    seen (exec (.jmp 2) (st 0xFF 0 0 0x20 0)) (fun t => t.pc) = some 0x20 ∧
      seen (exec (.jmp 7) (st 0x40 0 0 0 0 0x40)) (fun t => t.pc) = some 0x40 ∧
      faultsAs (st 0 0 0 0 0) .badRegister 8 (exec (.jmp 8) (st 0 0 0 0 0)) = true := by decide

/-- T10 to T14, T18, and the last pc of the not-taken path. -/
theorem witness_JeqBranchesWhenEqualIsSet :
    seen (exec (.jeq 2) (st 0xFE 0 0 0x10 0 0xF4 1)) (fun t => t.pc) = some 0x10 ∧
      seen (exec (.jeq 2) (st 0x0C 0 0 0x10 0 0xF4 2)) (fun t => t.pc) = some 0x0E ∧
      seen (exec (.jeq 7) (st 0xFD 0 0 0x10 0 0xF4 0)) (fun t => t.pc) = some 0xFF ∧
      faultsAs (st 0xFE 0 0 0 0 0xF4 4) .pcOverflow 0 (exec (.jeq 2) (st 0xFE 0 0 0 0 0xF4 4)) = true ∧
      faultsAs (st 0 0 0 0 0 0xF4 2) .badRegister 8 (exec (.jeq 8) (st 0 0 0 0 0 0xF4 2)) = true := by decide

/-- T15 to T17, and the last pc and the overflow of the not-taken path (R91). -/
theorem witness_JneBranchesWhenEqualIsClear :
    seen (exec (.jne 3) (st 0x14 0 0 0 0x0C 0xF4 4)) (fun t => t.pc) = some 0x0C ∧
      seen (exec (.jne 3) (st 0xFE 0 0 0 0x0C 0xF4 0)) (fun t => t.pc) = some 0x0C ∧
      seen (exec (.jne 3) (st 0xFD 0 0 0 0x0C 0xF4 1)) (fun t => t.pc) = some 0xFF ∧
      faultsAs (st 0xFE 0 0 0 0 0xF4 1) .pcOverflow 0 (exec (.jne 3) (st 0xFE 0 0 0 0 0xF4 1)) = true ∧
      faultsAs (st 0 0 0 0 0 0xF4 1) .badRegister 8 (exec (.jne 8) (st 0 0 0 0 0 0xF4 1)) = true := by decide

/-! ## The step -/

/-- S13 and S17: ILLEGAL_OPCODE with the byte, and no step when HALTED. -/
theorem test_step_illegal_and_halted :
    faultsAs (withBytes (st 0x30 0 0 0 0) 0x30 [0x52]) .illegalOpcode 0x52 (step (withBytes (st 0x30 0 0 0 0) 0x30 [0x52])) = true ∧
      seen (step ((st 0 0 0 0 0).halt .halt 0)) (fun t => decide (t = (st 0 0 0 0 0).halt .halt 0)) = some true := by decide

/-- S15 and S16: a JMP at 0xFF takes its operand from address 0x00. -/
theorem test_step_wraps_operand_fetch :
    faultsAs (withBytes (st 0xFF 0 0 0x40 0) 0xFF [0x54, 0x82]) .badRegister 0x82
        (step (withBytes (st 0xFF 0 0 0x40 0) 0xFF [0x54, 0x82])) = true ∧
      seen (step (withBytes (st 0xFF 0 0 0x40 0) 0xFF [0x54, 0x02])) (fun t => t.pc) = some 0x40 := by decide

/-- S10: NOT's second fetched byte is not checked. -/
theorem test_step_unused_byte : seen (step (withBytes (st 0 0 0 0 0) 0 [0x69, 0x00, 0xFF])) (fun t => (t.reg 0, t.pc)) =
    some (0xFF, 0x02) := by decide

/-- R117: a PUSH that overwrites its own opcode byte still completes. -/
theorem test_step_push_over_itself :
    seen (step (withBytes (st 0x10 0x01 0 0 0 0x11) 0x10 [0x45, 0x00])) (fun t => (t.readByte 0x10, t.pc, t.status)) =
      some (0x01, 0x12, .running) := by decide

theorem test_withFetchWord :
    seen (step (State.reset.withFetchWord 24 0x070082)) (fun t => (t.reg 0, t.pc)) = some (0x07, 0x03) ∧
      seen (step (State.reset.withFetchWord 8 0x11)) (fun t => (t.reg 7, t.pc)) = some (0xF5, 0x00) := by decide

theorem witness_StepRunsTheDecodedInstruction :
    (withBytes (st 0xFE 0 0 0 0) 0xFE [0x54, 0x07]).status = .running ∧
      decode 0x54 0x07 0x00 = .ok (.jmp 7) ∧ fetch (withBytes (st 0xFE 0 0 0 0) 0xFE [0x54, 0x07]) = (0x54, 0x07, 0x00) := by decide

theorem witness_StepFaultsOnAnUnrecognizedOpcode :
    State.reset.status = .running ∧ State.reset.readByte State.reset.pc ∉ opcodeBytes := by decide

theorem witness_StepOfAHaltedCoreDoesNothing : (State.reset.halt .pcOverflow 0).status = .halted := by decide

/-- Each clause: `opA` of F1R, F2RI and F2RR, `opB` of F2RR, and legal operands that go on. -/
theorem witness_RegisterOperandsAreCheckedInOrder :
    Opcode.not.format = .f1r ∧ Opcode.loadImmediate.format = .f2ri ∧ Opcode.add.format = .f2rr ∧
      7 < (8 : Byte).toNat ∧ (7 : Byte).toNat ≤ 7 ∧ Opcode.ret.format = .f0 ∧
      seen (exec (Opcode.add.instr 7 7) State.reset) (fun t => t.cause) = some .none ∧
      seen (exec (Opcode.ret.instr 8 8) State.reset) (fun t => t.cause) = some .none := by decide

/-- Both clauses of R64: at 0xFC a three-byte instruction reaches 0xFF, at 0xFD it overflows; MOD with its divisor. -/
theorem witness_AdvanceAddsTheOpcodesLength :
    (Instr.opcode (.mod 0 1)).byte.getLsbD 4 = false ∧ (∀ r ∈ (Instr.mod 0 1).regOperands, r.toNat ≤ 7) ∧
      (st 0xFC 9 5 0 0).reg 1 ≠ 0 ∧
      (st 0xFC 9 5 0 0).pc.toNat + (((Instr.opcode (.mod 0 1)).byte >>> 6).toNat + 1) = 255 ∧
      (st 0xFD 9 5 0 0).pc.toNat + (((Instr.opcode (.mod 0 1)).byte >>> 6).toNat + 1) = 256 := by decide

/-- Both alternatives of R93: a step that goes on, a fault, and HALT. -/
theorem witness_EveryHaltIsPrecise :
    seen (exec (.add 0 0) State.reset) (fun t => t.status) = some .running ∧
      seen (exec (.mod 0 0) State.reset) record = some (.halted, .divByZero, 0, 0) ∧
      seen (exec .halt State.reset) record = some (.halted, .halt, 0, 0) := by decide

/-- R100: a state for each fault and one with none; the second and third have a later fault's condition too. -/
theorem witness_StepRaisesTheFirstApplicableFault :
    State.reset.firstFault = some (.illegalOpcode, 0x00) ∧
      (withBytes (st 0xFD 0 0 0 0) 0xFD [0xA4, 8, 9]).firstFault = some (.badRegister, 8) ∧
      (withBytes (st 0xFD 0 0 0 0) 0xFD [0xA4, 7, 9]).firstFault = some (.badRegister, 9) ∧
      (withBytes (st 0xFD 0 0 0 0) 0xFD [0xA4, 7, 1]).firstFault = some (.divByZero, 0) ∧
      (withBytes (st 0xFD 0 1 0 0) 0xFD [0xA4, 7, 1]).firstFault = some (.pcOverflow, 0) ∧
      (withBytes (st 0xFC 0 1 0 0) 0xFC [0xA4, 7, 1]).firstFault = none := by decide

/-! ## Witnesses of the statements over all instructions -/

theorem witness_DecodeAndEncodeAgree :
    encode (.cmp 255 7) ++ [0x01] = (0xA7 : Byte) :: 255 :: 7 :: [0x01] ∧
      encode .ret ++ [0x00, 0xFF] = (0x11 : Byte) :: 0x00 :: 0xFF :: [] := by decide

theorem witness_EncodeGivesBackTheDecodedBytes :
    decode 0x82 255 255 = .ok (.loadImmediate 255 255) ∧ encode (.loadImmediate 255 255) = [0x82, 255, 255] ∧
      decode 0x11 1 2 = .ok .ret ∧ encode .ret = [0x11] := by decide

theorem witness_DecoderAcceptsExactlyTheTable : (0xAD : Byte) ∈ opcodeBytes ∧ (0xAE : Byte) ∉ opcodeBytes := by decide

theorem witness_UnusedOperandBytesHaveNoEffect :
    (((0x69 : Byte) >>> 6).toNat + 1 = 2) ∧ (((0x11 : Byte) >>> 6).toNat + 1 = 1) := by decide

/-- One line of each format, aliases among them, and a line the syntax does not have (R56, R57). -/
theorem witness_AssemblyGivesTheTablesBytes :
    "RET" ∈ Opcode.mnemonic .ret :: Opcode.aliases .ret ∧ assemble "RET" [] = some .ret ∧
      assemble "NOT" [.reg 7] = some (.not 7) ∧ assemble "ALU_MUL" [.reg 0, .reg 1] = some (.mul 0 1) ∧
      assemble "LDI" [.reg 0, .imm 255] = some (.loadImmediate 0 255) ∧ assemble "JEQ" [.imm 0x10] = none := by decide

/-- R56: the spellings of the source's scenarios, and the three number bases. -/
theorem test_assembleLine_spellings :
    assembleLine "LOAD_IMMEDIATE r0,7" = some (.loadImmediate 0 7) ∧ assembleLine "ALU_MUL r0,r1" = some (.mul 0 1) ∧
      assembleLine "LDI R7, 0xFF" = some (.loadImmediate 7 255) ∧ assembleLine "HALT" = some .halt ∧
      assembleLine "LDI R3, 0b101" = some (.loadImmediate 3 5) := by decide

/-- R56: no register above 7, no immediate above 255, no branch to an immediate, no missing operand. -/
theorem test_assembleLine_refuses :
    assembleLine "PUSH R8" = none ∧ assembleLine "LDI R3, 256" = none ∧ assembleLine "JEQ 0x10" = none ∧
      assembleLine "LDI R3," = none := by decide

/-- PUSH R1 completes, reads R1 and R7, and writes R7 only, so R0 is in neither column. -/
theorem witness_RegistersReadAndWrittenAreTheTables :
    seen (exec (.push 1) State.reset) (fun t => t.status) = some .running ∧
      (0 : RegIndex).val ∉ regsWritten (.push 1) ∧ (0 : RegIndex).val ∉ regsRead (.push 1) := by decide

/-- A register that is written and not read: R0 of LOAD_IMMEDIATE R0 and of POP R0, which both complete (R16). -/
theorem witness_RegistersReadAndWrittenAreTheTables_written :
    (0 : RegIndex).val ∉ regsRead (.loadImmediate 0 7) ∧ (0 : RegIndex).val ∈ regsWritten (.loadImmediate 0 7) ∧
      seen (exec (.loadImmediate 0 7) State.reset) (fun t => t.reg 0) = some 7 ∧
      seen (exec (.loadImmediate 0 7) (State.reset.setReg 0 0xF0)) (fun t => t.reg 0) = some 7 ∧
      (0 : RegIndex).val ∉ regsRead (.pop 0) ∧ (0 : RegIndex).val ∈ regsWritten (.pop 0) := by decide

/-- JNE with an FL that differs in bits other than E, and CMP from a legal FL. -/
theorem witness_FlagsAreWrittenByCmpAndReadByJumps :
    seen (exec (.jne 0) (st 0 0 0 0 0 0xF4 2)) (fun t => t.fl) = some 2 ∧ (4 : Byte).getLsbD 0 = (2 : Byte).getLsbD 0 ∧
      (0x02 : Byte) ∈ [(0x00 : Byte), 0x01, 0x02, 0x04] ∧
      seen (exec (.cmp 0 1) (st 0 0 0 0 0 0xF4 2)) (fun t => t.fl) = some 1 := by decide

/-- A PUSH that changes the byte below SP, and a POP with another memory that agrees at SP. -/
theorem witness_MemoryIsAccessedOnlyByTheStack :
    seen (exec (.push 0) (st 0 0x11 0 0 0 0x00)) (fun t => decide (t.readByte 0xFF ≠ (st 0 0x11 0 0 0 0x00).readByte 0xFF)) = some true ∧
      seen (exec (.pop 0) State.reset) (fun t => t.status) = some .running ∧
      Memory.read [(0, 1)] (State.reset.reg 7) = State.reset.mem.read (State.reset.reg 7) := by decide

theorem witness_OutputIsAppendedByPrintRegAndNeverRead :
    seen (exec (.printReg 7) { State.reset with out := [1, 2] }) (fun t => t.out) = some [1, 2, 0xF4] := by decide

/-- A state that meets the invariant, is not the reset state, and steps. -/
theorem witness_StepKeepsTheInvariant :
    (withBytes (st 0x20 0 0 0 0 0xF4 2) 0x20 [0x45, 0x07]).Inv ∧
      seen (step (withBytes (st 0x20 0 0 0 0 0xF4 2) 0x20 [0x45, 0x07])) (fun t => t.mem) =
        some [(0x20, 0x45), (0x21, 0x07), (0xF3, 0xF4)] :=
  ⟨⟨by decide, by decide, by decide, by decide⟩, by decide⟩

theorem witness_EveryRunFromEveryImageMeetsTheInvariant :
    seen (core.run 1 (State.resetWith (imageOfProgram [0x82, 0x00, 0x07]))) (fun t => (t.reg 0, t.pc)) = some (7, 3) := by decide

theorem witness_HaltedIsTerminal :
    seen (core.run 1 State.reset) record = some (.halted, .illegalOpcode, 0, 0) := by decide

theorem witness_OutputOnlyGrows :
    seen (core.run 1 (State.resetWith (imageOfProgram [0x47, 0x07]))) (fun t => t.out) = some [0xF4] := by decide

theorem witness_CanonicalMemoriesAreExtensional :
    Memory.wf [(0, 1), (255, 2)] ∧ Memory.write (Memory.write [] 255 2) 0 1 = [(0, 1), (255, 2)] := by decide

theorem witness_StoredInstructionRuns :
    (st 0xFF 0 0 0 0).status = .running ∧
      fetch (storeBytes (st 0xFF 0 0 0 0) 0xFF (encode (.add 1 2))) = (0xA0, 1, 2) := by decide

theorem witness_FetchSeesEveryEarlierStore : (7 : Byte).toNat = (7 : RegIndex).val ∧ (st 0xFD 0 0 0 0).pc.toNat ≤ 0xFD := by decide

/-- One step of a run, a LOAD_IMMEDIATE, so no step before its end stores; and a PUSH R0 with SP = 0xF4, which stores at 0xF3. -/
theorem witness_FetchSeesEveryEarlierStore_run :
    seen (core.run 1 (State.resetWith (imageOfProgram [0x82, 0x00, 0x07]))) (fun t => t.pc) = some 3 ∧
      ¬ StoresAt (State.resetWith (imageOfProgram [0x82, 0x00, 0x07])) 0xF3 ∧
      StoresAt (State.resetWith (imageOfProgram [0x45, 0x00])) 0xF3 :=
  ⟨by decide, fun h => absurd h.2.1 (by decide), ⟨rfl, .inl (by decide), by decide⟩⟩

/-- A PUSH of R0 and a POP into R6 on the state the PUSH left. -/
theorem witness_PushThenPopRoundTrips :
    (0 : RegIndex) ≠ 7 ∧ (6 : RegIndex) ≠ 7 ∧ (st 0xFB 0x2A 0 0 0 0x00).pc.toNat ≤ 0xFD ∧
      seen (exec (.push 0) (st 0xFB 0x2A 0 0 0 0x00)) (fun t => decide (t.pc.toNat ≤ 0xFD)) = some true ∧
      seen (exec (.push 0) (st 0xFB 0x2A 0 0 0 0x00)) (fun t => seen (exec (.pop 6) t) fun v => (v.reg 6, v.reg 7)) =
        some (some (0x2A, 0x00)) := by decide

theorem witness_CallThenReturnResumes :
    (st 0xFD 0 0x0B 0 0).pc.toNat ≤ 0xFD ∧
      seen (exec (.call 1) (st 0xFD 0 0x0B 0 0)) (fun t => seen (exec .ret t) fun v => (v.pc, v.reg 7)) =
        some (some (0xFF, 0xF4)) := by decide

theorem witness_JeqAndJneTakeOppositePaths : (7 : Byte).toNat = (7 : RegIndex).val ∧ (st 0xFD 0 0 0 0).pc.toNat ≤ 0xFD := by decide

end Sys2Proof.Tests
end

section
/-! PROOFS. The effect of an instruction as data: what it writes where. An instruction's effect is fixed by the parts of
the state that it reads, so one lemma says both what an instruction can change and what it depends on; the
statements on who reads and writes what (R16, R20, R24) and the invariant start from it. -/

namespace Sys2Proof.Machine

open Sys2Proof.Spec

/-! ## Effects -/

/-- What one instruction does to the state, every value already computed; `p` is the next pc. -/
inductive Effect where
  /-- HALT, or a fault. -/
  | halt (c : HaltCause) (info : Byte)
  | jump (p : Byte)
  | writeReg (r : RegIndex) (v p : Byte)
  | emit (v p : Byte)
  | setFl (f p : Byte)
  /-- Write `v` at the new SP. -/
  | push (sp v p : Byte)
  /-- Write the popped byte to `x[r]` after the new SP to `x[7]` (R84). -/
  | pop (sp : Byte) (r : RegIndex) (v p : Byte)

/-- The state after an effect. -/
def Effect.apply (s : State) : Effect → State
  | .halt c info => s.halt c info
  | .jump p => s.setPc p
  | .writeReg r v p => (s.setReg r v).setPc p
  | .emit v p => (s.emit v).setPc p
  | .setFl f p => (s.setFl f).setPc p
  | .push sp v p => ((s.setReg 7 sp).writeByte sp v).setPc p
  | .pop sp r v p => ((s.setReg 7 sp).setReg r v).setPc p

/-- The registers that an effect writes. -/
def Effect.written : Effect → List RegIndex
  | .halt _ _ | .jump _ | .emit _ _ | .setFl _ _ => []
  | .writeReg r _ _ => [r]
  | .push _ _ _ => [7]
  | .pop _ r _ _ => [7, r]

/-- Which effects an instruction can have in a state: a fault only where its condition holds, and otherwise writes of the
registers of R16's column. -/
def Effect.Allowed (i : Instr) (s : State) : Effect → Prop
  | .halt c info => (i = .halt ∧ c = .halt ∧ info = 0) ∨ FaultCondition i s c info
  | .jump _ => regsWritten i = []
  | .writeReg r _ _ => regsWritten i = [r.val]
  | .emit v _ => ∃ (a : Byte) (ra : RegIndex), i = .printReg a ∧ a.toNat = ra.val ∧ v = s.reg ra
  | .setFl f _ => ∃ a b x y : Byte, i = .cmp a b ∧ f = compareFlags x y
  | .push sp _ _ => sp = s.reg 7 - 1 ∧ ∃ a, i = .push a ∨ i = .call a
  | .pop _ r _ _ => ∃ a, i = .pop a ∧ a.toNat = r.val

/-- `s'` holds what `s` holds in every part that the meaning of `i` reads: pc, the registers of R16's column "reads", bit E for
JEQ and JNE (R20), and the byte at SP for POP and RETURN (R30). -/
structure AgreesOnReads (i : Instr) (s s' : State) : Prop where
  pc : s'.pc = s.pc
  reg : ∀ r : RegIndex, r.val ∈ regsRead i → s'.reg r = s.reg r
  equalBit : (∃ a, i = .jeq a ∨ i = .jne a) → equalBit s'.fl = equalBit s.fl
  top : (∃ a, i = .pop a) ∨ i = .ret → s'.readByte (s.reg 7) = s.readByte (s.reg 7)

theorem AgreesOnReads.refl (i : Instr) (s : State) : AgreesOnReads i s s :=
  ⟨rfl, fun _ _ => rfl, fun _ => rfl, fun _ => rfl⟩

/-- JEQ and JNE alone read FL to see whether they need `pc + len`. -/
theorem needsNextPc_congr {i : Instr} {fl fl' : Byte}
    (h : (∃ a, i = .jeq a ∨ i = .jne a) → equalBit fl' = equalBit fl) :
    needsNextPc i.opcode fl' = needsNextPc i.opcode fl := by
  cases i with
  | jeq a => simp only [needsNextPc, h ⟨a, .inl rfl⟩]
  | jne a => simp only [needsNextPc, h ⟨a, .inr rfl⟩]
  | _ => rfl

/-- A fault's condition is on parts that the instruction reads. -/
theorem FaultCondition.congr {i : Instr} {s s' : State} {c : HaltCause} {info : Byte} (hs : AgreesOnReads i s s')
    (h : FaultCondition i s c info) : FaultCondition i s' c info := by
  rcases h with h | ⟨hc, hi, a, b, rb, rfl, ha, hb, h0⟩ | ⟨hc, hi, hr, hm, hn, hlt⟩
  · exact .inl h
  · exact .inr (.inl ⟨hc, hi, a, b, rb, rfl, ha, hb, by rw [hs.reg rb (by simp [regsRead, hb]), h0]⟩)
  · refine .inr (.inr ⟨hc, hi, hr, ?_, needsNextPc_congr hs.equalBit ▸ hn, hs.pc.symm ▸ hlt⟩)
    rintro a b rb rfl hb
    rw [hs.reg rb (by simp [regsRead, hb])]
    exact hm a b rb rfl hb

/-! ## One effect for all states that agree -/

/-- The effect is allowed, and it is what `i` does to every state that agrees with `s` on what `i` reads. -/
def HasEffect (i : Instr) (s : State) (e : Effect) : Prop :=
  e.Allowed i s ∧ ∀ s', AgreesOnReads i s s' → exec i s' = .next (e.apply s')

theorem hasEffect_of_completes {i : Instr} {s : State} {e : Effect} (ha : e.Allowed i s)
    (h : ∀ s', AgreesOnReads i s s' → Completes i s' (e.apply s')) : HasEffect i s e :=
  ⟨ha, fun s' hs => exec_of_completes (h s' hs)⟩

/-- A fall-through from an agreeing state reaches the same pc. -/
theorem AgreesOnReads.fallsThrough {i : Instr} {s s' : State} {o : Opcode} (hs : AgreesOnReads i s s')
    (hle : s.pc.toNat + o.length ≤ Config.pcMax) (w : State) :
    FallsThroughTo o s' w (w.setPc (trunc8 (s.pc.toNat + o.length))) := by
  rw [← hs.pc] at hle ⊢
  exact ⟨hle, rfl⟩

/-- The seven two-register instructions that `BinaryCompletes` describes. -/
theorem BinaryCompletes.hasEffect {o : Opcode} {f : Byte → Byte → Byte} {i : Instr} {a b : Byte} {s t : State}
    (h : BinaryCompletes o f a b s t) (hi : Completes i = BinaryCompletes o f a b)
    (hr : regsRead i = [a.toNat, b.toNat]) (hw : regsWritten i = [a.toNat]) : ∃ e, HasEffect i s e := by
  obtain ⟨ra, rb, ha, hb, hle, -⟩ := h
  refine ⟨.writeReg ra (f (s.reg ra) (s.reg rb)) (trunc8 (s.pc.toNat + o.length)),
    hasEffect_of_completes (hw.trans (by rw [ha])) fun s' hs => hi ▸ ⟨ra, rb, ha, hb, ?_⟩⟩
  rw [hs.reg ra (by simp [hr, ha]), hs.reg rb (by simp [hr, hb])]
  exact hs.fallsThrough hle _

/-- JMP, and the taken JEQ and JNE. -/
theorem hasEffect_jump {i : Instr} {s : State} {ra : RegIndex} (hr : ra.val ∈ regsRead i) (hw : regsWritten i = [])
    (h : ∀ s', AgreesOnReads i s s' → Completes i s' (s'.setPc (s'.reg ra))) : ∃ e, HasEffect i s e :=
  ⟨.jump (s.reg ra), hasEffect_of_completes hw fun s' hs => hs.reg ra hr ▸ h s' hs⟩

/-- The JEQ and the JNE that are not taken. -/
theorem hasEffect_notTaken {i : Instr} {s : State} {o : Opcode} (hw : regsWritten i = [])
    (hle : s.pc.toNat + o.length ≤ Config.pcMax)
    (h : ∀ s' t, AgreesOnReads i s s' → FallsThroughTo o s' s' t → Completes i s' t) : ∃ e, HasEffect i s e :=
  ⟨.jump (trunc8 (s.pc.toNat + o.length)),
    hasEffect_of_completes hw fun s' hs => h s' _ hs (hs.fallsThrough hle s')⟩

/-- A completed instruction has an effect, fixed by what it reads. -/
theorem Completes.hasEffect {i : Instr} {s t : State} (h : Completes i s t) : ∃ e, HasEffect i s e := by
  cases i with
  | halt => exact ⟨.halt .halt 0, hasEffect_of_completes (.inl ⟨rfl, rfl, rfl⟩) fun _ _ => rfl⟩
  | add a b => exact BinaryCompletes.hasEffect h rfl rfl rfl
  | mul a b => exact BinaryCompletes.hasEffect h rfl rfl rfl
  | and a b => exact BinaryCompletes.hasEffect h rfl rfl rfl
  | or a b => exact BinaryCompletes.hasEffect h rfl rfl rfl
  | xor a b => exact BinaryCompletes.hasEffect h rfl rfl rfl
  | shl a b => exact BinaryCompletes.hasEffect h rfl rfl rfl
  | shr a b => exact BinaryCompletes.hasEffect h rfl rfl rfl
  | mod a b =>
    obtain ⟨ra, rb, ha, hb, h0, hle, -⟩ := h
    refine ⟨.writeReg ra (aluMod (s.reg ra) (s.reg rb)) (trunc8 (s.pc.toNat + Opcode.mod.length)),
      hasEffect_of_completes (congrArg ([·]) ha) fun s' hs => ?_⟩
    have hrb := hs.reg rb (by simp [regsRead, hb])
    refine ⟨ra, rb, ha, hb, hrb.symm ▸ h0, ?_⟩
    rw [hs.reg ra (by simp [regsRead, ha]), hrb]
    exact hs.fallsThrough hle _
  | cmp a b =>
    obtain ⟨ra, rb, ha, hb, hle, -⟩ := h
    refine ⟨.setFl (compareFlags (s.reg ra) (s.reg rb)) (trunc8 (s.pc.toNat + Opcode.cmp.length)),
      hasEffect_of_completes ⟨a, b, _, _, rfl, rfl⟩ fun s' hs => ⟨ra, rb, ha, hb, ?_⟩⟩
    rw [hs.reg ra (by simp [regsRead, ha]), hs.reg rb (by simp [regsRead, hb])]
    exact hs.fallsThrough hle _
  | loadImmediate a imm =>
    obtain ⟨ra, ha, hle, -⟩ := h
    exact ⟨.writeReg ra imm (trunc8 (s.pc.toNat + Opcode.loadImmediate.length)),
      hasEffect_of_completes (congrArg ([·]) ha) fun s' hs => ⟨ra, ha, hs.fallsThrough hle _⟩⟩
  | not a =>
    obtain ⟨ra, ha, hle, -⟩ := h
    refine ⟨.writeReg ra (aluNot (s.reg ra)) (trunc8 (s.pc.toNat + Opcode.not.length)),
      hasEffect_of_completes (congrArg ([·]) ha) fun s' hs => ⟨ra, ha, ?_⟩⟩
    rw [hs.reg ra (by simp [regsRead, ha])]
    exact hs.fallsThrough hle _
  | printReg a =>
    obtain ⟨ra, ha, hle, -⟩ := h
    refine ⟨.emit (s.reg ra) (trunc8 (s.pc.toNat + Opcode.printReg.length)),
      hasEffect_of_completes ⟨a, ra, rfl, ha, rfl⟩ fun s' hs => ⟨ra, ha, ?_⟩⟩
    rw [hs.reg ra (by simp [regsRead, ha])]
    exact hs.fallsThrough hle _
  | push a =>
    obtain ⟨ra, ha, hle, -⟩ := h
    refine ⟨.push (s.reg 7 - 1) (s.reg ra) (trunc8 (s.pc.toNat + Opcode.push.length)),
      hasEffect_of_completes ⟨rfl, a, .inl rfl⟩ fun s' hs => ⟨ra, ha, ?_⟩⟩
    rw [← hs.reg 7 (by simp [regsRead]), ← hs.reg ra (by simp [regsRead, ha])]
    exact hs.fallsThrough hle _
  | pop a =>
    obtain ⟨ra, ha, hle, -⟩ := h
    refine ⟨.pop (s.reg 7 + 1) ra (s.readByte (s.reg 7)) (trunc8 (s.pc.toNat + Opcode.pop.length)),
      hasEffect_of_completes ⟨a, rfl, ha⟩ fun s' hs => ⟨ra, ha, ?_⟩⟩
    rw [← hs.top (.inl ⟨a, rfl⟩), ← hs.reg 7 (by simp [regsRead])]
    exact hs.fallsThrough hle _
  | call a =>
    obtain ⟨ra, ha, hle, -⟩ := h
    refine ⟨.push (s.reg 7 - 1) (trunc8 (s.pc.toNat + Opcode.call.length)) (s.reg ra),
      hasEffect_of_completes ⟨rfl, a, .inr rfl⟩ fun s' hs => ⟨ra, ha, hs.pc.symm ▸ hle, ?_⟩⟩
    rw [← hs.reg 7 (by simp [regsRead]), ← hs.reg ra (by simp [regsRead, ha]), ← hs.pc]
    rfl
  | ret =>
    refine ⟨.writeReg 7 (s.reg 7 + 1) (s.readByte (s.reg 7)), hasEffect_of_completes rfl fun s' hs => ?_⟩
    rw [← hs.top (.inr rfl), ← hs.reg 7 (by simp [regsRead])]
    rfl
  | jmp a =>
    obtain ⟨ra, ha, -⟩ := h
    exact hasEffect_jump (by simp [regsRead, ha]) rfl fun s' _ => ⟨ra, ha, rfl⟩
  | jeq a =>
    obtain ⟨ra, ha, ⟨he, -⟩ | ⟨he, hle, -⟩⟩ := h
    · exact hasEffect_jump (by simp [regsRead, ha]) rfl fun s' hs =>
        ⟨ra, ha, .inl ⟨(hs.equalBit ⟨a, .inl rfl⟩).trans he, rfl⟩⟩
    · exact hasEffect_notTaken rfl hle fun s' t hs ht =>
        ⟨ra, ha, .inr ⟨(hs.equalBit ⟨a, .inl rfl⟩).trans he, ht⟩⟩
  | jne a =>
    obtain ⟨ra, ha, ⟨he, -⟩ | ⟨he, hle, -⟩⟩ := h
    · exact hasEffect_jump (by simp [regsRead, ha]) rfl fun s' hs =>
        ⟨ra, ha, .inl ⟨(hs.equalBit ⟨a, .inr rfl⟩).trans he, rfl⟩⟩
    · exact hasEffect_notTaken rfl hle fun s' t hs ht =>
        ⟨ra, ha, .inr ⟨(hs.equalBit ⟨a, .inr rfl⟩).trans he, ht⟩⟩

/-- Every instruction has one allowed effect, whatever the state; it depends on the parts that the instruction reads alone. -/
theorem exec_hasEffect (i : Instr) (s : State) : ∃ e, HasEffect i s e := by
  rcases exec_cases i s with ⟨c, info, hc, -⟩ | ⟨_, -, h⟩
  · exact ⟨.halt c info, .inr hc, fun s' hs => exec_of_fault (hc.congr hs)⟩
  · exact h.hasEffect

/-- The same, of a next state that is at hand. -/
theorem exec_next_effect {i : Instr} {s t : State} (h : exec i s = .next t) :
    ∃ e : Effect, e.Allowed i s ∧ t = e.apply s ∧ ∀ s', AgreesOnReads i s s' → exec i s' = .next (e.apply s') := by
  obtain ⟨e, ha, he⟩ := exec_hasEffect i s
  cases h.symm.trans (he s (.refl i s))
  exact ⟨e, ha, rfl, he⟩

end Sys2Proof.Machine
end

section
/-! PROOFS. The statements of spec/10_state.md: who reads and writes what, reset, the invariant and runs. -/

namespace Sys2Proof.Machine

open Sys2Proof.Spec

/-! ## Registers (R16) -/

theorem setReg_setReg_same (s : State) (r : RegIndex) (v w : Byte) : (s.setReg r v).setReg r w = s.setReg r w := by
  simp [State.setReg]

theorem setReg_comm (s : State) {r q : RegIndex} (h : r ≠ q) (v w : Byte) :
    (s.setReg r v).setReg q w = (s.setReg q w).setReg r v := by
  simp [State.setReg, Vector.set_comm _ _ (fun he => h (Fin.ext he))]

theorem Effect.apply_setReg_of_not_mem {e : Effect} {r : RegIndex} (h : r ∉ e.written) (s : State) (v : Byte) :
    e.apply (s.setReg r v) = (e.apply s).setReg r v := by
  cases e with
  | halt | jump | emit | setFl => rfl
  | writeReg q w p =>
    have hq : r ≠ q := by simpa [Effect.written] using h
    exact congrArg (·.setPc p) (setReg_comm s hq v w)
  | push sp w p =>
    have h7 : r ≠ 7 := by simpa [Effect.written] using h
    exact congrArg (fun u => (u.writeByte sp w).setPc p) (setReg_comm s h7 v sp)
  | pop sp q w p =>
    obtain ⟨h7, hq⟩ : r ≠ 7 ∧ r ≠ q := by simpa [Effect.written] using h
    simp only [Effect.apply, setReg_comm _ h7, setReg_comm _ hq]
    rfl

theorem Effect.apply_setReg_of_mem {e : Effect} {r : RegIndex} (h : r ∈ e.written) (s : State) (v : Byte) :
    e.apply (s.setReg r v) = e.apply s := by
  cases e with
  | halt | jump | emit | setFl => cases h
  | writeReg q w p =>
    obtain rfl : r = q := by simpa [Effect.written] using h
    simp only [Effect.apply, setReg_setReg_same]
  | push sp w p =>
    obtain rfl : r = 7 := by simpa [Effect.written] using h
    simp only [Effect.apply, setReg_setReg_same]
  | pop sp q w p =>
    by_cases h7 : r = 7
    · simp only [Effect.apply, h7, setReg_setReg_same]
    · obtain rfl : r = q := by simpa [Effect.written, h7] using h
      simp only [Effect.apply, setReg_comm _ h7, setReg_setReg_same]

theorem Effect.apply_reg_of_not_mem {e : Effect} {r : RegIndex} (h : r ∉ e.written) (s : State) :
    (e.apply s).reg r = s.reg r := by
  cases e <;> simp_all [Effect.written, Effect.apply]

/-- A fault writes no register; any other effect writes R16's column. -/
theorem Effect.Allowed.written {i : Instr} {s : State} {e : Effect} (h : e.Allowed i s) :
    e.written.map Fin.val = regsWritten i ∨ e.written = [] ∧ ∃ c info, FaultCondition i s c info := by
  cases e with
  | halt c info =>
    rcases h with ⟨rfl, -⟩ | h
    · exact .inl rfl
    · exact .inr ⟨rfl, c, info, h⟩
  | jump | writeReg => exact .inl (Eq.symm h)
  | emit => obtain ⟨_, _, rfl, -⟩ := h; exact .inl rfl
  | setFl => obtain ⟨_, _, _, _, rfl, -⟩ := h; exact .inl rfl
  | push => obtain ⟨-, _, rfl | rfl⟩ := h <;> exact .inl rfl
  | pop => obtain ⟨_, rfl, ha⟩ := h; simp [Effect.written, regsWritten, ha]

theorem Effect.Allowed.mem_regsWritten {i : Instr} {s : State} {e : Effect} (h : e.Allowed i s) {r : RegIndex}
    (hr : r ∈ e.written) : r.val ∈ regsWritten i := by
  rcases h.written with hw | ⟨hw, -⟩
  · exact hw ▸ List.mem_map_of_mem hr
  · simp [hw] at hr

/-- Where a register of R16's column is not written, the instruction faults. -/
theorem Effect.Allowed.fault_of_not_mem {i : Instr} {s : State} {e : Effect} (h : e.Allowed i s) {r : RegIndex}
    (hr : r ∉ e.written) (hi : r.val ∈ regsWritten i) : ∃ c info, FaultCondition i s c info := by
  rcases h.written with hw | ⟨-, hf⟩
  · obtain ⟨q, hq, he⟩ := List.mem_map.1 (hw ▸ hi)
    exact absurd (Fin.ext he ▸ hq) hr
  · exact hf

theorem agreesOnReads_setReg {i : Instr} {r : RegIndex} (hr : r.val ∉ regsRead i) (s : State) (v : Byte) :
    AgreesOnReads i s (s.setReg r v) where
  pc := rfl
  reg q hq := setReg_reg_ne s r q v fun h => hr (h ▸ hq)
  equalBit _ := rfl
  top _ := rfl

/-- Settles O38: an effect that writes the replaced register hides the replacement, and one that does not keeps it. -/
theorem registersReadAndWrittenAreTheTables : Obligations.RegistersReadAndWrittenAreTheTables := by
  intro i s t ht
  obtain ⟨e, ha, rfl, he⟩ := exec_next_effect ht
  refine ⟨fun r hr => Effect.apply_reg_of_not_mem (fun h => hr (ha.mem_regsWritten h)) s, fun r v hr => ?_⟩
  refine ⟨_, he _ (agreesOnReads_setReg hr s v), ?_⟩
  by_cases hw : r ∈ e.written
  · rw [Effect.apply_setReg_of_mem hw]
    exact ⟨fun _ _ => rfl, fun h => absurd (ha.mem_regsWritten hw) h, fun _ => .inl rfl, rfl, rfl, rfl, rfl, rfl, rfl, rfl⟩
  · rw [Effect.apply_setReg_of_not_mem hw]
    refine ⟨fun q hq => setReg_reg_ne _ r q v hq, fun _ => setReg_reg_same _ r v, fun hi => ?_,
      rfl, rfl, rfl, rfl, rfl, rfl, rfl⟩
    obtain ⟨c, info, hf⟩ := ha.fault_of_not_mem hw hi
    exact .inr ⟨⟨c, info, exec_of_fault hf⟩, setReg_reg_same _ r v⟩

/-! ## Flags (R20) -/

/-- CMP alone writes FL, with the flags of a comparison. -/
theorem Effect.Allowed.fl {i : Instr} {s : State} {e : Effect} (h : e.Allowed i s) :
    (e.apply s).fl = s.fl ∨ ∃ a b x y : Byte, i = .cmp a b ∧ (e.apply s).fl = compareFlags x y := by
  cases e with
  | setFl f p => exact .inr h
  | _ => exact .inl rfl

/-- A replaced FL is kept, or hidden by the FL written. -/
theorem Effect.apply_setFl (e : Effect) (s : State) (f : Byte) :
    e.apply (s.setFl f) = (e.apply s).setFl f ∨ e.apply (s.setFl f) = e.apply s := by
  cases e with
  | setFl => exact .inr rfl
  | _ => exact .inl rfl

theorem agreesOnReads_setFl {i : Instr} {s : State} {f : Byte}
    (h : (∃ a, i = .jeq a ∨ i = .jne a) → f.getLsbD 0 = s.fl.getLsbD 0) : AgreesOnReads i s (s.setFl f) where
  pc := rfl
  reg _ _ := rfl
  equalBit := h
  top _ := rfl

/-- R19: at most one of E, G and L is set, and bits 7:3 are 0. -/
theorem compareFlags_mem (x y : Byte) : compareFlags x y ∈ [0x00, 0x01, 0x02, 0x04] := by
  rcases compareFlags_cases x y with ⟨-, h⟩ | ⟨-, h⟩ | ⟨-, h⟩ <;> rw [h] <;> decide

/-- An FL of R19's four values stays one. -/
theorem Effect.Allowed.fl_mem {i : Instr} {s : State} {e : Effect} (h : e.Allowed i s)
    (hs : s.fl ∈ [0x00, 0x01, 0x02, 0x04]) : (e.apply s).fl ∈ [0x00, 0x01, 0x02, 0x04] := by
  rcases h.fl with hf | ⟨_, _, x, y, -, hf⟩
  · exact hf ▸ hs
  · exact hf ▸ compareFlags_mem x y

/-- Settles O39: only CMP's effect writes FL, and only JEQ and JNE compare an equal bit. -/
theorem flagsAreWrittenByCmpAndReadByJumps : Obligations.FlagsAreWrittenByCmpAndReadByJumps := by
  intro i s t ht
  obtain ⟨e, ha, rfl, he⟩ := exec_next_effect ht
  refine ⟨ha.fl.imp_right fun ⟨a, b, _, _, hi, _⟩ => ⟨a, b, hi⟩, fun f hf => ?_, ha.fl_mem⟩
  have hu := he _ (agreesOnReads_setFl hf)
  rcases e.apply_setFl s f with h | h <;> rw [h] at hu
  · exact ⟨_, hu, rfl, .inl rfl⟩
  · exact ⟨_, hu, rfl, .inr rfl⟩

/-! ## Output (R24) -/

theorem Effect.Allowed.out {i : Instr} {s : State} {e : Effect} (h : e.Allowed i s) :
    (e.apply s).out = s.out ∨
      ∃ (a : Byte) (ra : RegIndex), i = .printReg a ∧ a.toNat = ra.val ∧ (e.apply s).out = s.out ++ [s.reg ra] := by
  cases e with
  | emit v p =>
    obtain ⟨a, ra, hi, ha, rfl⟩ := h
    exact .inr ⟨a, ra, hi, ha, rfl⟩
  | _ => exact .inl rfl

/-- The same values are appended to any port. -/
theorem Effect.apply_out (e : Effect) (s : State) (port : List Byte) :
    e.apply { s with out := port } = { e.apply s with out := port ++ (e.apply s).out.drop s.out.length } := by
  cases e with
  | emit => simp [Effect.apply, State.emit, State.setPc]
  | _ => simp [Effect.apply, State.halt, State.setReg, State.setPc, State.setFl, State.writeByte]

theorem agreesOnReads_out (i : Instr) (s : State) (port : List Byte) : AgreesOnReads i s { s with out := port } where
  pc := rfl
  reg _ _ := rfl
  equalBit _ := rfl
  top _ := rfl

/-- Settles O41: states that differ in the port agree on all that is read. -/
theorem outputIsAppendedByPrintRegAndNeverRead : Obligations.OutputIsAppendedByPrintRegAndNeverRead := by
  refine ⟨fun _ => rfl, fun i s t ht => ?_⟩
  obtain ⟨e, ha, rfl, he⟩ := exec_next_effect ht
  exact ⟨ha.out, fun port => e.apply_out s port ▸ he _ (agreesOnReads_out i s port)⟩

/-! ## Halt causes (R22) and reset (R28) -/

/-- Settles O37, by evaluating the six codes. -/
theorem haltCausesHaveTheirCodes : Obligations.HaltCausesHaveTheirCodes := by
  unfold Obligations.HaltCausesHaveTheirCodes
  decide

/-- Settles O42: the memory is the image's (`read_ofImage`), and the rest is `State.reset`'s. -/
theorem resetLeavesTheSpecsState : Obligations.ResetLeavesTheSpecsState := by
  have hregs : ∀ r : RegIndex, r.val ≤ 6 → State.reset.reg r = 0x00 := by decide
  exact fun image => ⟨hregs, rfl, rfl, rfl, read_ofImage image, rfl, rfl, rfl, rfl⟩

/-- Settles O43: the empty memory list is canonical and reads 0 everywhere. -/
theorem resetMeetsTheInvariant : Obligations.ResetMeetsTheInvariant :=
  ⟨⟨wf_reset, .inl rfl, fun _ => ⟨rfl, rfl⟩, nofun⟩, fun _ => rfl⟩

/-! ## The fault of the fetched instruction (R100) -/

theorem regOperands_instr (o : Opcode) (opA opB : Byte) :
    (o.instr opA opB).regOperands =
      if o.format = .f0 then [] else if o.format = .f2rr then [opA, opB] else [opA] := by
  cases o <;> rfl

theorem firstFault_of_illegal {s : State} (ho : Opcode.ofByte (fetch s).1 = none) :
    s.firstFault = some (.illegalOpcode, (fetch s).1) := by
  simp only [State.firstFault, ho]

/-- The first register operand above 7 is the fault of the second and third items of R100. -/
theorem firstFault_of_badRegister {s : State} {o : Opcode} {r : Byte} (ho : Opcode.ofByte (fetch s).1 = some o)
    (h : (o.instr (fetch s).2.1 (fetch s).2.2).regOperands.find? (fun r => decide (7 < r.toNat)) = some r) :
    s.firstFault = some (.badRegister, r) := by
  rw [regOperands_instr] at h
  simp only [State.firstFault, ho]
  by_cases h0 : o.format = .f0
  · simp [h0] at h
  by_cases hA : 7 < (fetch s).2.1.toNat
  · rw [if_pos ⟨h0, hA⟩]
    split_ifs at h <;> simpa [hA] using h
  · rw [if_neg fun hc => hA hc.2]
    split_ifs at h with h2
    · obtain ⟨hB, rfl⟩ : 7 < (fetch s).2.2.toNat ∧ (fetch s).2.2 = r := by
        simpa [hA] using h
      exact if_pos ⟨h2, hB⟩
    · simp [hA] at h

/-- With legal register operands the last two items of R100 remain. -/
theorem firstFault_of_legal {s : State} {o : Opcode} (ho : Opcode.ofByte (fetch s).1 = some o)
    (h : ∀ r ∈ (o.instr (fetch s).2.1 (fetch s).2.2).regOperands, r.toNat ≤ 7) :
    s.firstFault =
      if o = .mod ∧ (regOperand (fetch s).2.2).map s.reg = some 0 then some (.divByZero, 0)
      else if needsNextPc o s.fl = true ∧ Config.pcMax < s.pc.toNat + o.length then some (.pcOverflow, 0)
      else none := by
  rw [regOperands_instr] at h
  have hA : ¬ (o.format ≠ .f0 ∧ 7 < (fetch s).2.1.toNat) := fun ⟨hf, hlt⟩ =>
    absurd (h (fetch s).2.1 (by rw [if_neg hf]; split_ifs <;> simp)) (Nat.not_le.2 hlt)
  have hB : ¬ (o.format = .f2rr ∧ 7 < (fetch s).2.2.toNat) := fun ⟨hf, hlt⟩ =>
    absurd (h (fetch s).2.2 (by simp [hf])) (Nat.not_le.2 hlt)
  simp only [State.firstFault, ho, if_neg hA, if_neg hB]

/-- The fault whose condition the decoded instruction meets is R100's. -/
theorem firstFault_of_faultCondition {s : State} {o : Opcode} {c : HaltCause} {info : Byte}
    (ho : Opcode.ofByte (fetch s).1 = some o)
    (h : FaultCondition (o.instr (fetch s).2.1 (fetch s).2.2) s c info) : s.firstFault = some (c, info) := by
  rcases h with ⟨rfl, hf⟩ | ⟨rfl, rfl, a, b, rb, hi, ha, hb, h0⟩ | ⟨rfl, rfl, hr, hm, hn, hlt⟩
  · exact firstFault_of_badRegister ho hf
  · obtain rfl : o = .mod := (instr_opcode o _ _).symm.trans (congrArg Instr.opcode hi)
    obtain ⟨rfl, rfl⟩ : _ = a ∧ _ = b := Instr.mod.inj hi
    rw [firstFault_of_legal ho (by simp [Opcode.instr, Instr.regOperands, ha, legal_of_eq hb]), if_pos]
    exact ⟨rfl, by rw [regOperand_eq_some.2 hb, Option.map_some, h0]⟩
  · rw [instr_opcode] at hn hlt
    rw [firstFault_of_legal ho hr, if_neg, if_pos ⟨hn, hlt⟩]
    rintro ⟨rfl, h0⟩
    obtain ⟨rb, hrb, h0⟩ := Option.map_eq_some_iff.1 h0
    exact hm _ _ rb rfl (regOperand_eq_some.1 hrb) h0

/-! ## The invariant (R19, R21, R22) -/

theorem Effect.apply_wf (e : Effect) {s : State} (h : s.mem.wf) : (e.apply s).mem.wf := by
  cases e with
  | push sp v p => exact wf_write h sp v
  | _ => exact h

theorem Effect.isHalt_or_sameRecord (e : Effect) (s : State) :
    (∃ c info, e = .halt c info) ∨ SameRecord s (e.apply s) := by
  cases e with
  | halt c info => exact .inl ⟨c, info, rfl⟩
  | _ => exact .inr ⟨rfl, rfl, rfl⟩

theorem fl_legal_iff {f : Byte} :
    (f = 0 ∨ f = flagE ∨ f = flagG ∨ f = flagL) ↔ f ∈ [0x00, 0x01, 0x02, 0x04] := by
  simp [flagE, flagG, flagL]

/-- A halt keeps the invariant where the instruction at pc explains it: the halt moves neither pc nor memory. -/
theorem State.Inv.halt {s : State} (h : s.Inv) {c : HaltCause} {info : Byte}
    (hr : (c = .halt ∧ info = 0 ∧ (fetch s).1 = Opcode.byte .halt) ∨ s.firstFault = some (c, info)) :
    (s.halt c info).Inv :=
  ⟨h.memory_wf, h.fl_legal, nofun, fun _ => hr⟩

/-- Every effect of the fetched instruction keeps the invariant. -/
theorem State.Inv.apply {s : State} (h : s.Inv) (hrun : s.status = .running) {o : Opcode}
    (ho : Opcode.ofByte (fetch s).1 = some o) {e : Effect}
    (ha : e.Allowed (o.instr (fetch s).2.1 (fetch s).2.2) s) : (e.apply s).Inv := by
  rcases e.isHalt_or_sameRecord s with ⟨c, info, rfl⟩ | ⟨hstatus, hcause, hinfo⟩
  · refine h.halt (ha.imp (fun ⟨hi, hc, h0⟩ => ⟨hc, h0, ?_⟩) (firstFault_of_faultCondition ho))
    have hhalt : o = .halt := (instr_opcode o _ _).symm.trans (congrArg Instr.opcode hi)
    exact hhalt ▸ (byte_of_ofByte ho).symm
  · obtain ⟨hnone, h0⟩ := h.running_record hrun
    exact ⟨e.apply_wf h.memory_wf, fl_legal_iff.2 (ha.fl_mem (fl_legal_iff.1 h.fl_legal)),
      fun _ => ⟨hcause.trans hnone, hinfo.trans h0⟩, fun hh => nomatch (hstatus.trans hrun).symm.trans hh⟩

/-- Settles O44, by the three cases of a step. -/
theorem stepKeepsTheInvariant : Obligations.StepKeepsTheInvariant := by
  intro s t hs ht
  rcases step_cases s with ⟨-, h⟩ | ⟨hrun, o, ho, h⟩ | ⟨-, ho, h⟩
  · cases h.symm.trans ht
    exact hs
  · obtain ⟨e, ha, rfl, -⟩ := exec_next_effect (h.symm.trans ht)
    exact hs.apply hrun ho ha
  · cases h.symm.trans ht
    exact hs.halt (.inr (firstFault_of_illegal ho))

/-! ## Runs -/

theorem step_of_halted {s : State} (h : s.status = .halted) : step s = .next s := by
  simp only [step, h, haltedStep_eq]

/-- Settles O31: the HALTED case of the step. -/
theorem stepOfAHaltedCoreDoesNothing : Obligations.StepOfAHaltedCoreDoesNothing := fun _ => step_of_halted

/-- No step stops without a next state (R119). -/
theorem step_next (s : State) : ∃ t, step s = .next t := by
  rcases step_cases s with ⟨-, h⟩ | ⟨-, o, -, h⟩ | ⟨-, -, h⟩
  · exact ⟨_, h⟩
  · obtain ⟨e, -, he⟩ := exec_hasEffect (o.instr (fetch s).2.1 (fetch s).2.2) s
    exact ⟨_, h.trans (he s (.refl _ s))⟩
  · exact ⟨_, h⟩

/-- A longer run goes on from where the shorter one ends. -/
theorem run_add {k j : Nat} {s t : State} (h : core.run k s = .next t) : core.run (k + j) s = core.run j t := by
  induction k generalizing s with
  | zero => cases h; rw [Nat.zero_add]
  | succ k ih =>
    obtain ⟨u, hu⟩ := step_next s
    rw [run_of_step hu] at h
    rw [Nat.add_right_comm, run_of_step hu, ih h]

theorem run_of_halted {t : State} (h : t.status = .halted) (j : Nat) : core.run j t = .next t := by
  induction j with
  | zero => rfl
  | succ j ih => rw [run_of_step (step_of_halted h), ih]

/-- Settles O46: the run goes on with steps of a HALTED core. -/
theorem haltedIsTerminal : Obligations.HaltedIsTerminal :=
  fun _ j _ _ hrun hhalted => (run_add hrun).trans (run_of_halted hhalted j)

/-- A step appends at most one value to the port. -/
theorem step_out {s t : State} (h : step s = .next t) :
    ∃ emitted : List Byte, t.out = s.out ++ emitted ∧ emitted.length ≤ 1 := by
  have unchanged : t.out = s.out → ∃ emitted : List Byte, t.out = s.out ++ emitted ∧ emitted.length ≤ 1 :=
    fun ho => ⟨[], by simp [ho], by simp⟩
  rcases step_cases s with ⟨-, h'⟩ | ⟨-, o, -, h'⟩ | ⟨-, -, h'⟩
  · cases h'.symm.trans h
    exact unchanged rfl
  · obtain ⟨e, ha, rfl, -⟩ := exec_next_effect (h'.symm.trans h)
    rcases ha.out with ho | ⟨_, ra, -, -, ho⟩
    · exact unchanged ho
    · exact ⟨[s.reg ra], ho, le_rfl⟩
  · cases h'.symm.trans h
    exact unchanged rfl

/-- Settles O47, by induction on the number of steps. -/
theorem outputOnlyGrows : Obligations.OutputOnlyGrows := by
  intro k
  induction k with
  | zero =>
    intro s t h
    cases h
    exact ⟨[], (List.append_nil _).symm, le_rfl⟩
  | succ k ih =>
    intro s t h
    obtain ⟨u, hu⟩ := step_next s
    obtain ⟨now, hnow, hle⟩ := step_out hu
    obtain ⟨later, hlater, hlek⟩ := ih u t ((run_of_step hu).symm.trans h)
    exact ⟨now ++ later, by rw [hlater, hnow, List.append_assoc], by rw [List.length_append]; omega⟩

end Sys2Proof.Machine
end

section
/-! PROOFS. The statements of spec/20_memory.md: memory lists as data, the addresses of every access, and what a fetch
sees. -/

namespace Sys2Proof.Machine

open Sys2Proof.Spec

/-! ## Memory lists (R23, R29) -/

/-- The cells of a list with rising keys are the keys' bytes, where these are not the byte of an unlisted key. -/
theorem mem_iff_lookup {m : Memory} (h : m.Pairwise fun p q => p.1 < q.1) {a : Nat} {v : Byte}
    (hv : v ≠ Config.unwrittenByte) : (a, v) ∈ m ↔ Memory.lookup m a = v := by
  induction m with
  | nil => simpa [Memory.lookup] using hv.symm
  | cons p m ih =>
    obtain ⟨k, w⟩ := p
    obtain ⟨hlt, hm⟩ := List.pairwise_cons.1 h
    by_cases hk : k = a
    · subst hk
      have hnot : (k, v) ∉ m := fun hmem => (hlt _ hmem).false
      simp [Memory.lookup, hnot, eq_comm]
    · simp [Memory.lookup, hk, Ne.symm hk, ih hm]

/-- The cells of a canonical list are what it reads, byte by byte. -/
theorem mem_iff_read {m : Memory} (h : m.wf) {p : Host.Cell} :
    p ∈ m ↔ p.1 < Config.memSize ∧ p.2 ≠ Config.unwrittenByte ∧ m.read (BitVec.ofNat 8 p.1) = p.2 := by
  have hread : p.1 < Config.memSize → m.read (BitVec.ofNat 8 p.1) = Memory.lookup m p.1 := fun hlt => by
    rw [Memory.read, BitVec.toNat_ofNat]
    exact congrArg (Memory.lookup m) (Nat.mod_eq_of_lt hlt)
  constructor
  · intro hp
    obtain ⟨hlt, hv⟩ := h.2 p hp
    exact ⟨hlt, hv, (hread hlt).trans ((mem_iff_lookup h.1 hv).1 hp)⟩
  · rintro ⟨hlt, hv, hp⟩
    exact (mem_iff_lookup h.1 hv).2 ((hread hlt).symm.trans hp)

/-- Settles O49: two sorted lists with the same cells are equal. -/
theorem canonicalMemoriesAreExtensional : Obligations.CanonicalMemoriesAreExtensional := by
  intro m n hm hn h
  have : Std.Asymm fun p q : Host.Cell => p.1 < q.1 := ⟨fun _ _ => Nat.lt_asymm⟩
  exact hm.1.eq_of_mem_iff hn.1 fun p => by rw [mem_iff_read hm, mem_iff_read hn, h]

/-! ## The addresses of every access (R30) -/

/-- The decremented SP, as the statements on the spec's words write it. -/
theorem sub_one_eq (x : Byte) : x - 1 = BitVec.ofNat 8 ((x.toNat + 255) % 256) := by bv_omega

theorem add_eq_ofNat (x : Byte) (n : Nat) : x + BitVec.ofNat 8 n = BitVec.ofNat 8 ((x.toNat + n) % 256) :=
  BitVec.eq_of_toNat_eq (by simp)

/-- A byte that an effect changes is PUSH's or CALL's, at the decremented SP. -/
theorem Effect.Allowed.store {i : Instr} {s : State} {e : Effect} (h : e.Allowed i s) {a : Byte}
    (ha : (e.apply s).readByte a ≠ s.readByte a) : (∃ r, i = .push r ∨ i = .call r) ∧ a = s.reg 7 - 1 := by
  cases e with
  | push sp v p =>
    obtain ⟨rfl, hi⟩ := h
    exact ⟨hi, by_contra fun hne => ha ((writeByte_readByte _ _ a v).trans (if_neg hne))⟩
  | _ => exact absurd rfl ha

theorem agreesOnReads_mem {i : Instr} {s : State} {m : Memory}
    (h : (∃ r, i = .pop r) ∨ i = .ret → m.read (s.reg 7) = s.mem.read (s.reg 7)) :
    AgreesOnReads i s { s with mem := m } where
  pc := rfl
  reg _ _ := rfl
  equalBit _ := rfl
  top := h

/-- An effect on a replaced memory leaves each byte as replaced, or the one written. -/
theorem Effect.apply_mem_readByte (e : Effect) (s : State) (m : Memory) (a : Byte) :
    (e.apply { s with mem := m }).readByte a = m.read a ∨
      (e.apply { s with mem := m }).readByte a = (e.apply s).readByte a := by
  cases e with
  | push sp v p =>
    by_cases ha : a = sp
    · exact .inr (by simp [Effect.apply, ha])
    · exact .inl ((writeByte_readByte _ sp a v).trans (if_neg ha))
  | _ => exact .inl rfl

/-- An effect on a replaced memory leaves all else as it would have been. -/
theorem Effect.apply_mem (e : Effect) (s : State) (m : Memory) :
    e.apply { s with mem := m } = { e.apply s with mem := (e.apply { s with mem := m }).mem } := by
  cases e <;> rfl

/-- Settles O40: only the effect of PUSH and CALL stores, and states that differ in memory agree on all that is read. -/
theorem memoryIsAccessedOnlyByTheStack : Obligations.MemoryIsAccessedOnlyByTheStack := by
  refine ⟨fun s => by rw [← add_eq_ofNat, ← add_eq_ofNat]; rfl, fun i s t ht => ?_⟩
  obtain ⟨e, ha, rfl, he⟩ := exec_next_effect ht
  refine ⟨fun a hne => sub_one_eq (s.reg 7) ▸ ha.store hne, fun m hm => ?_⟩
  refine ⟨_, he _ (agreesOnReads_mem hm), ?_⟩
  have hrest := e.apply_mem s m
  have hbyte := e.apply_mem_readByte s m
  generalize e.apply { s with mem := m } = u at hrest hbyte ⊢
  rw [hrest]
  exact ⟨rfl, rfl, rfl, rfl, ⟨rfl, rfl, rfl⟩, hbyte⟩

/-! ## What a fetch sees (R41) -/

/-- A fetch gets the byte that memory holds, whichever of its three addresses it is. -/
theorem fetchedAs_readByte (s : State) (x : Byte) : FetchedAs s x (s.readByte x) :=
  ⟨rfl, congrArg s.readByte (BitVec.sub_add_cancel x 1), congrArg s.readByte (BitVec.sub_add_cancel x 2)⟩

/-- A step that changes a byte stores there (R30). -/
theorem step_storesAt {s t : State} (h : step s = .next t) {x : Byte} (hx : t.readByte x ≠ s.readByte x) :
    StoresAt s x := by
  rcases step_cases s with ⟨-, h'⟩ | ⟨hrun, o, ho, h'⟩ | ⟨-, -, h'⟩
  · cases h'.symm.trans h
    exact absurd rfl hx
  · obtain ⟨e, ha, rfl, -⟩ := exec_next_effect (h'.symm.trans h)
    obtain ⟨⟨r, hi⟩, hsp⟩ := ha.store hx
    have hop := hi.imp (congrArg Instr.opcode) (congrArg Instr.opcode)
    rw [instr_opcode] at hop
    have hir : o.byte = s.readByte s.pc := byte_of_ofByte ho
    exact ⟨hrun, hop.imp (fun hp => (hp ▸ hir).symm) (fun hc => (hc ▸ hir).symm), hsp⟩
  · cases h'.symm.trans h
    exact absurd rfl hx

/-- A run in which no step stores at an address keeps the byte there. -/
theorem run_readByte {k : Nat} {s u : State} {x : Byte} (h : core.run k s = .next u)
    (hno : ∀ (j : Nat) (q : State), j < k → core.run j s = .next q → ¬ StoresAt q x) :
    u.readByte x = s.readByte x := by
  induction k generalizing s with
  | zero => cases h; rfl
  | succ k ih =>
    obtain ⟨t, ht⟩ := step_next s
    have hfirst : t.readByte x = s.readByte x :=
      by_contra fun hne => hno 0 s k.succ_pos rfl (step_storesAt ht hne)
    rw [← hfirst]
    exact ih ((run_of_step ht).symm.trans h) fun j q hj hq =>
      hno (j + 1) q (Nat.succ_lt_succ hj) ((run_of_step ht).trans hq)

/-- Every later fetch sees the byte that memory holds now, until a store there. -/
theorem fetchedUntilNextStore (s : State) (x : Byte) : FetchedUntilNextStore s x (s.readByte x) :=
  fun _ u hu hno => run_readByte hu hno ▸ fetchedAs_readByte u x

/-- After a push, with any next pc, later fetches see the byte pushed at the decremented SP and the old bytes elsewhere. -/
theorem fetchedUntilNextStore_pushByte (s : State) (v p x : Byte) :
    FetchedUntilNextStore ((s.pushByte v).setPc p) x (if x = s.reg 7 - 1 then v else s.readByte x) :=
  pushByte_readByte s v x ▸ fetchedUntilNextStore ((s.pushByte v).setPc p) x

/-- The return address of a CALL that completes (R87). -/
theorem trunc8_pc_call (pc : Byte) : trunc8 (pc.toNat + Opcode.call.length) = pc + 2 := by
  rw [length_of_format]
  exact BitVec.eq_of_toNat_eq (by simp [Opcode.format])

/-- Settles O52: a run without a store at an address keeps its byte, from any state and so from the one that PUSH or CALL
answers. -/
theorem fetchSeesEveryEarlierStore : Obligations.FetchSeesEveryEarlierStore := by
  refine ⟨fetchedUntilNextStore, fun a ra s ha hpc => ⟨?_, ?_⟩⟩
  · have hfits : s.pc.toNat + Opcode.push.length ≤ Config.pcMax := Nat.add_le_add_right hpc 2
    exact ⟨_, exec_of_completes ⟨ra, ha, hfits, rfl⟩, fetchedUntilNextStore_pushByte s _ _⟩
  · have hfits : s.pc.toNat + Opcode.call.length ≤ Config.pcMax := Nat.add_le_add_right hpc 2
    exact ⟨_, exec_of_completes ⟨ra, ha, hfits, rfl⟩,
      trunc8_pc_call s.pc ▸ fetchedUntilNextStore_pushByte s _ _⟩

end Sys2Proof.Machine
end

section
/-! PROOFS. The statements of spec/30_encoding.md: the encoder and the decoder are inverse to each other, which bytes
decode, and what the assembler writes. The idea of the first part: an encoding is the first `len` of three bytes
(`encode_instr`), and it determines its instruction (`encode_injective`). -/

namespace Sys2Proof

open Sys2Proof.Machine Sys2Proof.Spec

/-! ## Encodings determine their instructions -/

theorem byte_injective : Function.Injective Opcode.byte := fun o p h =>
  Option.some.inj ((ofByte_byte o).symm.trans (h ▸ ofByte_byte p))

/-- An instruction is its opcode applied to its operand bytes; the format uses no byte that is missing. -/
theorem instr_operandBytes (i : Instr) :
    i.opcode.instr (i.operandBytes.getD 0 0) (i.operandBytes.getD 1 0) = i := by
  cases i <;> rfl

theorem encode_injective : Function.Injective encode := by
  intro i j h
  obtain ⟨hbyte, hoperands⟩ := List.cons.inj h
  rw [← instr_operandBytes i, ← instr_operandBytes j, byte_injective hbyte, hoperands]

/-- R43, R44: the encoding is the first `len` of the bytes an instruction is made of. -/
theorem encode_instr (o : Opcode) (opA opB : Byte) : encode (o.instr opA opB) = [o.byte, opA, opB].take o.length := by
  cases o <;> rfl

theorem length_le_three (o : Opcode) : o.length ≤ 3 := by
  cases o <;> decide

theorem encode_length (i : Instr) : (encode i).length = i.opcode.length := by
  rw [← instr_operandBytes i, encode_instr, instr_opcode]
  exact List.length_take_of_le (length_le_three _)

/-- The encoding is read back from any bytes that begin with it. -/
theorem encode_eq_take {i : Instr} {following more : List Byte} {ir opA opB : Byte}
    (h : encode i ++ following = ir :: opA :: opB :: more) : encode i = [ir, opA, opB].take i.opcode.length :=
  calc encode i = (encode i ++ following).take i.opcode.length := (List.take_left' (encode_length i)).symm
    _ = ([ir, opA, opB] ++ more).take i.opcode.length := congrArg _ h
    _ = [ir, opA, opB].take i.opcode.length := List.take_append_of_le_length (length_le_three _)

/-! ## The decoder (R53, R54) -/

theorem decode_byte (o : Opcode) (opA opB : Byte) : decode o.byte opA opB = .ok (o.instr opA opB) :=
  decode_of_some (ofByte_byte o) opA opB

theorem decode_eq_ok {ir opA opB : Byte} {i : Instr} :
    decode ir opA opB = .ok i ↔ ∃ o : Opcode, o.byte = ir ∧ o.instr opA opB = i := by
  constructor
  · intro h
    cases ho : Opcode.ofByte ir with
    | some o => exact ⟨o, byte_of_ofByte ho, Except.ok.inj ((decode_of_some ho opA opB).symm.trans h)⟩
    | none => exact nomatch (decode_of_none ho opA opB).symm.trans h
  · rintro ⟨o, rfl, rfl⟩
    exact decode_byte o opA opB

/-- Settles O23: the three bytes give the opcode, and the instruction it makes of them has the encoding of `i`. -/
theorem decodeAndEncodeAgree : Obligations.DecodeAndEncodeAgree := by
  intro i following ir opA opB more h
  obtain ⟨rfl, -⟩ := List.cons.inj h
  refine decode_eq_ok.2 ⟨i.opcode, rfl, encode_injective ?_⟩
  rw [encode_instr, encode_eq_take h]

/-- Settles O24: the length of R44 is the one by which `encode_instr` cuts the bytes. -/
theorem encodeGivesBackTheDecodedBytes : Obligations.EncodeGivesBackTheDecodedBytes := by
  intro ir opA opB i h
  obtain ⟨o, rfl, rfl⟩ := decode_eq_ok.1 h
  exact encode_instr o opA opB

/-- Operand bytes that agree as far as the length of R44 goes decode alike. -/
theorem decode_congr {ir opA opB opA' opB' : Byte}
    (h : [ir, opA, opB].take (lengthOfByte ir) = [ir, opA', opB'].take (lengthOfByte ir)) :
    decode ir opA opB = decode ir opA' opB' := by
  cases ho : Opcode.ofByte ir with
  | none => rw [decode_of_none ho, decode_of_none ho]
  | some o =>
    obtain rfl := byte_of_ofByte ho
    have hinstr : o.instr opA opB = o.instr opA' opB' :=
      encode_injective ((encode_instr o opA opB).trans (h.trans (encode_instr o opA' opB').symm))
    rw [decode_byte, decode_byte, hinstr]

/-- Settles O26: the bytes beyond the length are not in the encoding. -/
theorem unusedOperandBytesHaveNoEffect : Obligations.UnusedOperandBytesHaveNoEffect := by
  intro ir opA opB opA' opB'
  refine ⟨fun hlen => decode_congr ?_, fun hlen => decode_congr ?_⟩ <;> rw [lengthOfByte, hlen] <;> rfl

/-! ## The table (R50) -/

theorem mem_opcodeBytes {ir : Byte} : ir ∈ opcodeBytes ↔ ∃ o : Opcode, o.byte = ir := by
  have hmap : opcodeBytes = Opcode.all.map Opcode.byte := rfl
  simp [hmap, mem_all]

theorem ofByte_isSome {ir : Byte} : (Opcode.ofByte ir).isSome = true ↔ ir ∈ opcodeBytes := by
  simp only [Option.isSome_iff_exists, ofByte_eq_some, mem_opcodeBytes]

/-- The numbers whose bytes are opcodes are, up to order, the 20 of the table. -/
theorem opcode_numbers_perm :
    ((List.range 256).filter fun n => (Opcode.ofByte (BitVec.ofNat 8 n)).isSome).Perm
      (opcodeBytes.map BitVec.toNat) := by
  refine (List.perm_ext_iff_of_nodup (List.nodup_range.filter _) (by decide)).2 fun n => ?_
  simp only [List.mem_filter, List.mem_range, ofByte_isSome, List.mem_map]
  constructor
  · exact fun ⟨hn, hmem⟩ => ⟨_, hmem, (BitVec.toNat_ofNat _ 8).trans (Nat.mod_eq_of_lt hn)⟩
  · rintro ⟨ir, hmem, rfl⟩
    exact ⟨ir.isLt, by rwa [BitVec.ofNat_toNat, BitVec.setWidth_eq]⟩

/-- Of the 256 bytes, the 20 of the table are opcodes and the rest are not. -/
theorem illegal_count : ((List.range 256).filter fun n => (Opcode.ofByte (BitVec.ofNat 8 n)).isNone).length = 236 := by
  have hsplit := List.length_eq_length_filter_add (l := List.range 256)
    fun n => (Opcode.ofByte (BitVec.ofNat 8 n)).isSome
  rw [List.length_range, opcode_numbers_perm.length_eq] at hsplit
  simp only [Option.not_isSome] at hsplit
  have htwenty : (opcodeBytes.map BitVec.toNat).length = 20 := rfl
  omega

/-- Settles O25: a byte decodes when it is an opcode's, and those are the bytes of the table. -/
theorem decoderAcceptsExactlyTheTable : Obligations.DecoderAcceptsExactlyTheTable := by
  refine ⟨fun ir opA opB => ?_, fun ir opA opB hir => decode_of_none ?_ opA opB, illegal_count⟩
  · simp only [decode_eq_ok, mem_opcodeBytes]
    exact ⟨fun ⟨_, o, ho, _⟩ => ⟨o, ho⟩, fun ⟨o, ho⟩ => ⟨_, o, ho, rfl⟩⟩
  · exact ofByte_eq_none.2 fun o ho => hir (mem_opcodeBytes.2 ⟨o, ho⟩)

/-- Settles O21, by evaluating the 20 rows. -/
theorem opcodeTableIsTheSpecs : Obligations.OpcodeTableIsTheSpecs := by
  unfold Obligations.OpcodeTableIsTheSpecs
  decide

/-- Settles O22: each word begins with an opcode's byte, but for the last, which is none. -/
theorem sampleWordsDecode : Obligations.SampleWordsDecode :=
  ⟨decode_byte .halt _ _, decode_byte .loadImmediate _ _, decode_byte .cmp _ _, decode_byte .not _ _,
    decode_byte .pop _ _, decode_byte .jeq _ _, decode_of_none (by decide) _ _⟩

/-! ## The assembler (R56, R57) -/

/-- R57: no name stands for two opcodes. -/
theorem ofName_of_mem (o : Opcode) : ∀ name ∈ o.mnemonic :: o.aliases, Opcode.ofName name = some o := by
  cases o <;> decide

theorem regByte_toNat_le (r : RegIndex) : (regByte r).toNat ≤ 7 := by
  have hr := r.isLt
  simp only [regByte, BitVec.toNat_ofNat]
  omega

/-- Legal register bytes make a well-formed instruction; the second byte of the other formats is no register. -/
theorem wellFormed_instr {o : Opcode} {opA opB : Byte} (hA : opA.toNat ≤ 7) (hB : o.format = .f2rr → opB.toNat ≤ 7) :
    (o.instr opA opB).wellFormed = true := by
  rw [Instr.wellFormed, regOperands_instr]
  split_ifs with h0 h2
  · rfl
  · simp [hA, hB h2]
  · simp [hA]

/-- Whatever assembles is an opcode's instruction of legal register bytes. -/
theorem assemble_some {name : String} {operands : List AsmOperand} {i : Instr} (h : assemble name operands = some i) :
    ∃ (o : Opcode) (opA opB : Byte), o.instr opA opB = i ∧ opA.toNat ≤ 7 ∧ (o.format = .f2rr → opB.toNat ≤ 7) := by
  unfold assemble at h
  split at h
  · cases h
  · next o _ =>
    split at h
    · exact ⟨o, 0, 0, Option.some.inj h, by decide, fun _ => by decide⟩
    · exact ⟨o, _, 0, Option.some.inj h, regByte_toNat_le _, fun _ => by decide⟩
    · exact ⟨o, _, _, Option.some.inj h, regByte_toNat_le _, fun _ => regByte_toNat_le _⟩
    · next hf => exact ⟨o, _, _, Option.some.inj h, regByte_toNat_le _, fun h2 => nomatch hf.symm.trans h2⟩
    · cases h

/-- Settles O27, format by format: the name gives the opcode, and the format gives the length of the encoding. -/
theorem assemblyGivesTheTablesBytes : Obligations.AssemblyGivesTheTablesBytes := by
  refine ⟨fun o name a b v hmem => ?_, fun name operands i h => ?_⟩
  · have ho := ofName_of_mem o name hmem
    have hlen := length_of_format o
    refine ⟨fun hf => ?_, fun hf => ?_, fun hf => ?_, fun hf => ?_⟩ <;> rw [hf] at hlen <;>
      simp [assemble, ho, hf, encode_instr, hlen, regByte]
  · obtain ⟨o, opA, opB, rfl, hA, hB⟩ := assemble_some h
    exact wellFormed_instr hA hB

/-! ## Unrecognized bytes (R54) -/

theorem step_of_illegal {s : State} (hrun : s.status = .running) (ho : Opcode.ofByte (fetch s).1 = none) :
    step s = .next (s.halt .illegalOpcode (fetch s).1) := by
  simp only [step, hrun, decode_of_none ho, raiseFault_eq]

/-- Settles O48: the byte at address 0 is 0x00, which is no opcode. -/
theorem emptyMemoryHaltsAtOnce : Obligations.EmptyMemoryHaltsAtOnce :=
  step_of_illegal (s := State.reset) rfl (by decide)

end Sys2Proof
end

section
/-! PROOFS. The statements of spec/40_cycle.md: fetch and decode, the operand check, the fall-through, HALT,
LOAD_IMMEDIATE and PRINT_REG, and runs from reset. -/

namespace Sys2Proof.Machine

open Sys2Proof.Spec

/-! ## Fetch and decode (R59 to R61) -/

/-- Settles O28: the first clause of R30's statement, on the addresses of a fetch. -/
theorem fetchReadsThreeBytesModulo256 : Obligations.FetchReadsThreeBytesModulo256 :=
  memoryIsAccessedOnlyByTheStack.1

/-- Settles O29: the RUNNING branch of the step. -/
theorem stepRunsTheDecodedInstruction : Obligations.StepRunsTheDecodedInstruction := by
  intro s i hrun hdecode
  simp only [step, hrun, hdecode]

theorem ofByte_eq_none_iff_not_mem {ir : Byte} : Opcode.ofByte ir = none ↔ ir ∉ opcodeBytes := by
  rw [← ofByte_isSome, Option.not_isSome_iff_eq_none]

/-- Settles O30: the first fetched byte is the one at pc. -/
theorem stepFaultsOnAnUnrecognizedOpcode : Obligations.StepFaultsOnAnUnrecognizedOpcode :=
  fun _ hrun hmem => step_of_illegal hrun (ofByte_eq_none_iff_not_mem.2 hmem)

/-! ## Stored instructions -/

@[simp] theorem storeBytes_pc (s : State) (a : Byte) (bytes : List Byte) : (storeBytes s a bytes).pc = s.pc := by
  induction bytes generalizing s a with
  | nil => rfl
  | cons v vs ih => exact ih _ _

@[simp] theorem storeBytes_status (s : State) (a : Byte) (bytes : List Byte) :
    (storeBytes s a bytes).status = s.status := by
  induction bytes generalizing s a with
  | nil => rfl
  | cons v vs ih => exact ih _ _

theorem add_ofNat_succ (a : Byte) (k : Nat) : a + BitVec.ofNat 8 (k + 1) = a + 1 + BitVec.ofNat 8 k := by
  rw [Nat.add_comm k, BitVec.ofNat_add, BitVec.add_assoc]
  rfl

/-- An address that none of the bytes is stored at reads as it did. -/
theorem storeBytes_readByte_of_ne (s : State) (a x : Byte) (bytes : List Byte)
    (h : ∀ k < bytes.length, x ≠ a + BitVec.ofNat 8 k) : (storeBytes s a bytes).readByte x = s.readByte x := by
  induction bytes generalizing s a with
  | nil => rfl
  | cons v vs ih =>
    have hx : x ≠ a := by simpa using h 0 (Nat.succ_pos _)
    have hrest : ∀ k < vs.length, x ≠ a + 1 + BitVec.ofNat 8 k := fun k hk =>
      add_ofNat_succ a k ▸ h (k + 1) (Nat.succ_lt_succ hk)
    rw [storeBytes, ih _ _ hrest, writeByte_readByte, if_neg hx]

/-- At most 256 bytes stored in a row are read back: none lands on another. -/
theorem storeBytes_readByte (s : State) (a : Byte) (bytes : List Byte) (hlen : bytes.length ≤ 256) (k : Nat)
    (hk : k < bytes.length) : (storeBytes s a bytes).readByte (a + BitVec.ofNat 8 k) = bytes[k] := by
  induction bytes generalizing s a k with
  | nil => cases hk
  | cons v vs ih =>
    rw [List.length_cons] at hlen
    cases k with
    | zero =>
      have hfar : ∀ j < vs.length, a ≠ a + 1 + BitVec.ofNat 8 j := by
        intro j hj
        bv_omega
      have hzero : a + BitVec.ofNat 8 0 = a := BitVec.add_zero a
      rw [hzero, storeBytes, storeBytes_readByte_of_ne _ _ _ _ hfar, writeByte_readByte, if_pos rfl,
        List.getElem_cons_zero]
    | succ k =>
      rw [add_ofNat_succ, storeBytes, ih _ _ (by omega) k (Nat.lt_of_succ_lt_succ hk), List.getElem_cons_succ]

/-- A RUNNING core that has the bytes of `i` from pc on, modulo 256, runs `i`. -/
theorem step_of_encoded_at_pc {i : Instr} {s : State} (hrun : s.status = .running)
    (h : ∀ (k : Nat) (hk : k < (encode i).length), s.readByte (s.pc + BitVec.ofNat 8 k) = (encode i)[k]) :
    step s = exec i s := by
  have hfetch : [(fetch s).1, (fetch s).2.1, (fetch s).2.2] =
      (List.range 3).map fun k => s.readByte (s.pc + BitVec.ofNat 8 k) := by
    simp [fetch, List.range_succ]
  have htake : encode i = [(fetch s).1, (fetch s).2.1, (fetch s).2.2].take i.opcode.length := by
    refine List.ext_getElem ?_ fun k hk _ => ?_
    · rw [encode_length, List.length_take_of_le (length_le_three _)]
    · simp only [hfetch, List.getElem_take, List.getElem_map, List.getElem_range]
      exact (h k hk).symm
  refine stepRunsTheDecodedInstruction s i hrun (decodeAndEncodeAgree i
    ([(fetch s).1, (fetch s).2.1, (fetch s).2.2].drop i.opcode.length) _ _ _ [] ?_)
  rw [htake, List.take_append_drop]

/-- Settles O50: an encoding has at most three bytes, so storing it leaves all of them at pc. -/
theorem storedInstructionRuns : Obligations.StoredInstructionRuns := by
  intro i s hrun
  have hlen : (encode i).length ≤ 256 := (encode_length i).trans_le ((length_le_three _).trans (by decide))
  refine step_of_encoded_at_pc ((storeBytes_status ..).trans hrun) fun k hk => ?_
  rw [storeBytes_pc]
  exact storeBytes_readByte s s.pc (encode i) hlen k hk

/-! ## Register operands (R62) -/

/-- The BAD_REGISTER clause of every instruction whose first operand is a register. -/
theorem badOneRegister {i : Instr} {a : Byte} {more : List Byte} (hi : i.regOperands = a :: more) (s : State) :
    BadOneRegister i a s :=
  fun ha => exec_of_fault (faultCondition_bad hi ha)

/-- Both BAD_REGISTER clauses of an F2RR instruction. -/
theorem badTwoRegisters {i : Instr} {a b : Byte} (hi : i.regOperands = [a, b]) (s : State) :
    BadTwoRegisters i a b s :=
  ⟨badOneRegister hi s, fun ha hb => exec_of_fault (faultCondition_bad' hi ha hb)⟩

/-- Legal register operands leave the other two faults. -/
theorem FaultCondition.cause_ne_badRegister {i : Instr} {s : State} {c : HaltCause} {info : Byte}
    (h : FaultCondition i s c info) (hlegal : ∀ r ∈ i.regOperands, r.toNat ≤ 7) : c ≠ .badRegister := by
  rcases h with ⟨-, hf⟩ | ⟨rfl, -⟩ | ⟨rfl, -⟩
  · have h7 : 7 < info.toNat := by simpa using List.find?_some hf
    exact absurd (hlegal info (List.mem_of_find?_eq_some hf)) (Nat.not_le.2 h7)
  · nofun
  · nofun

/-- An instruction with legal register operands does not record BAD_REGISTER. -/
theorem cause_of_legal {i : Instr} {s t : State} (hlegal : ∀ r ∈ i.regOperands, r.toNat ≤ 7)
    (h : exec i s = .next t) (ht : t.cause = .badRegister) : s.cause = .badRegister := by
  obtain ⟨e, ha, rfl, -⟩ := exec_next_effect h
  rcases e.isHalt_or_sameRecord s with ⟨c, info, rfl⟩ | ⟨-, hcause, -⟩
  · rcases ha with ⟨-, hc, -⟩ | hfault
    · exact nomatch hc.symm.trans ht
    · exact absurd ht (hfault.cause_ne_badRegister hlegal)
  · exact hcause.symm.trans ht

/-- Settles O32: the formats give the register operands (`regOperands_instr`). -/
theorem registerOperandsAreCheckedInOrder : Obligations.RegisterOperandsAreCheckedInOrder := by
  intro o opA opB s
  refine ⟨fun hf => ?_, fun hf => ?_, fun hA hB t => ?_⟩
  · obtain ⟨more, hops⟩ : ∃ more, (o.instr opA opB).regOperands = opA :: more := by
      rcases hf with hf | hf | hf <;> simp [regOperands_instr, hf]
    exact badOneRegister hops s
  · exact (badTwoRegisters (by simp [regOperands_instr, hf]) s).2
  · refine cause_of_legal ?_
    rw [regOperands_instr]
    split_ifs with h0 h2
    · simp
    · simp [hA h0, hB h2]
    · simp [hA h0]

/-! ## The fall-through (R64) -/

theorem opcode_ne_halt {i : Instr} (hi : i ≠ .halt) : i.opcode ≠ .halt := fun h =>
  hi ((instr_operandBytes i).symm.trans (by rw [h]; rfl))

theorem FallsThroughTo.pc {o : Opcode} {s s' t : State} (h : FallsThroughTo o s s' t) :
    t.pc.toNat = s.pc.toNat + o.length := by
  obtain ⟨hle, rfl⟩ := h
  exact nextPc_toNat (nextPc_some hle)

theorem BinaryCompletes.fallsThrough {o : Opcode} {f : Byte → Byte → Byte} {a b : Byte} {s t : State}
    (h : BinaryCompletes o f a b s t) : ∃ s', FallsThroughTo o s s' t ∧ SameRecord s s' := by
  obtain ⟨ra, rb, -, -, h⟩ := h
  exact ⟨_, h, rfl, rfl, rfl⟩

/-- A completed instruction with bit 4 clear, other than HALT, falls through with the halt record as it was. -/
theorem Completes.fallsThrough {i : Instr} {s t : State} (h : Completes i s t) (hbit : i.opcode.setsPc = false)
    (hi : i ≠ .halt) : ∃ s', FallsThroughTo i.opcode s s' t ∧ SameRecord s s' := by
  cases i with
  | halt => exact absurd rfl hi
  | call | ret | jmp | jeq | jne => exact absurd hbit (by simp [Instr.opcode, setsPc_iff])
  | add | mul | and | or | xor | shl | shr => exact BinaryCompletes.fallsThrough h
  | mod => obtain ⟨_, _, -, -, -, h⟩ := h; exact ⟨_, h, rfl, rfl, rfl⟩
  | cmp => obtain ⟨_, _, -, -, h⟩ := h; exact ⟨_, h, rfl, rfl, rfl⟩
  | loadImmediate | printReg | not | push | pop => obtain ⟨_, -, h⟩ := h; exact ⟨_, h, rfl, rfl, rfl⟩

/-- Settles O33: with legal operands and no MOD by zero, PC_OVERFLOW is the one fault left, and without it the
instruction falls through. -/
theorem advanceAddsTheOpcodesLength : Obligations.AdvanceAddsTheOpcodesLength := by
  intro i s hbit hi hlegal hdivisor
  have hneeds : needsNextPc i.opcode s.fl = true := by
    have hsets : i.opcode.setsPc = false := hbit
    simp [needsNextPc, hsets, opcode_ne_halt hi]
  refine ⟨fun hle => ?_, fun hlt => exec_of_fault (.inr (.inr ⟨rfl, rfl, hlegal, hdivisor, hneeds, hlt⟩))⟩
  rcases exec_cases i s with ⟨c, info, hc, -⟩ | ⟨t, he, hc⟩
  · have hne := hc.cause_ne_badRegister hlegal
    rcases hc with ⟨hbad, -⟩ | ⟨-, -, a, b, rb, hmod, -, hb, h0⟩ | ⟨-, -, -, -, -, hlt⟩
    · exact absurd hbad hne
    · exact absurd h0 (hdivisor a b rb hmod hb)
    · exact absurd hle (Nat.not_le.2 hlt)
  · obtain ⟨s', hfall, hrecord⟩ := hc.fallsThrough hbit hi
    exact ⟨t, he, hfall.pc, hfall.2 ▸ hrecord⟩

/-! ## HALT, LOAD_IMMEDIATE and PRINT_REG (R66 to R68) -/

/-- An instruction that completes by writing `x[d]` and falling through. -/
theorem writesRegister_of_fallsThrough {i : Instr} {s : State} {d : RegIndex} {v : Byte} {o : Opcode}
    (hle : s.pc.toNat + o.length ≤ Config.pcMax)
    (h : ∀ t, FallsThroughTo o s (s.setReg d v) t → Completes i s t) : WritesRegister i s d v o.length := by
  have hfall : FallsThroughTo o s (s.setReg d v) _ := ⟨hle, rfl⟩
  refine ⟨_, exec_of_completes (h _ hfall), setReg_reg_same s d v, fun r hr => ?_, hfall.pc, rfl, fun _ => rfl, rfl,
    rfl, rfl, rfl⟩
  exact setReg_reg_ne s d r v (by simpa using hr)

/-- Settles O1: the meaning of HALT, evaluated. -/
theorem haltStopsWithPcUnchanged : Obligations.HaltStopsWithPcUnchanged :=
  ⟨rfl, fun _ => exec_of_completes rfl⟩

/-- Settles O2: the register write, the operand check and the overflow check. -/
theorem loadImmediateWritesItsImmediate : Obligations.LoadImmediateWritesItsImmediate := by
  intro a imm s
  refine ⟨rfl, fun ra ha hpc => ?_, badOneRegister rfl s, fun ha hpc => ?_⟩
  · exact writesRegister_of_fallsThrough (o := .loadImmediate) (Nat.add_le_add_right hpc 3) fun t ht => ⟨ra, ha, ht⟩
  · exact exec_of_fault (faultCondition_over (o := .loadImmediate) rfl nofun (by simpa [Instr.regOperands] using ha) rfl
      (Nat.add_lt_add_right hpc 3))

/-- Settles O3: the appended value, the operand check and the overflow check. -/
theorem printRegEmitsItsRegister : Obligations.PrintRegEmitsItsRegister := by
  intro a s
  refine ⟨rfl, fun ra ha hpc => ?_, badOneRegister rfl s, fun ha hpc => ?_⟩
  · have hfall : FallsThroughTo .printReg s (s.emit (s.reg ra)) _ := ⟨Nat.add_le_add_right hpc 2, rfl⟩
    exact ⟨_, exec_of_completes (i := .printReg a) ⟨ra, ha, hfall⟩, rfl, hfall.pc, fun _ _ => rfl, rfl, fun _ => rfl,
      rfl, rfl, rfl⟩
  · exact exec_of_fault (faultCondition_over (o := .printReg) rfl nofun (by simpa [Instr.regOperands] using ha) rfl
      (Nat.add_lt_add_right hpc 2))

/-! ## Runs from reset (R69) -/

/-- Every run from a state that meets the invariant ends in one that does. -/
theorem State.Inv.run {s : State} (hs : s.Inv) {k : Nat} {t : State} (h : core.run k s = .next t) : t.Inv := by
  induction k generalizing s with
  | zero => cases h; exact hs
  | succ k ih =>
    obtain ⟨u, hu⟩ := step_next s
    exact ih (stepKeepsTheInvariant s u hs hu) ((run_of_step hu).symm.trans h)

/-- Reset meets the invariant with every image: of the reset of zeros it changes the memory alone. -/
theorem resetWith_inv (image : Byte → Byte) : (State.resetWith image).Inv :=
  ⟨wf_ofImage image, .inl rfl, fun _ => ⟨rfl, rfl⟩, nofun⟩

/-- Settles O45: the invariant holds after reset and along the run. -/
theorem everyRunFromEveryImageMeetsTheInvariant : Obligations.EveryRunFromEveryImageMeetsTheInvariant :=
  fun image _ _ h => (resetWith_inv image).run h

end Sys2Proof.Machine
end

section
/-! PROOFS. The statements of spec/41_alu.md. Nine of the ten instructions are F2RR, and seven of these share one meaning
and so one proof, `twoRegisterRule`: what remains of each is its pure function, as the spec writes it. -/

namespace Sys2Proof.Machine

open Sys2Proof.Spec

/-! ## The pure functions as the spec writes them -/

/-- R10: truncation takes the remainder by 256 itself. -/
theorem trunc8_eq_ofNat_mod (n : Nat) : trunc8 n = BitVec.ofNat 8 (n % 256) :=
  BitVec.eq_of_toNat_eq (by simp)

/-- R77. -/
theorem aluNot_eq_ofNat (x : Byte) : aluNot x = BitVec.ofNat 8 (255 - x.toNat) := by
  unfold aluNot
  bv_omega

/-- R78: an amount of 8 or more leaves a multiple of 2^8, and truncation drops it. -/
theorem trunc8_mul_two_pow (x : Byte) (n : Nat) :
    trunc8 (x.toNat * 2 ^ n) = if 8 ≤ n then 0 else (x <<< n) &&& 0xFF := by
  split_ifs with h
  · have hdvd : 2 ^ 8 ∣ x.toNat * 2 ^ n := Dvd.dvd.mul_left (Nat.pow_dvd_pow 2 h) _
    exact BitVec.eq_of_toNat_eq (by simpa [Nat.dvd_iff_mod_eq_zero] using hdvd)
  · calc trunc8 (x.toNat * 2 ^ n) = x <<< n := BitVec.eq_of_toNat_eq (by simp [Nat.shiftLeft_eq])
      _ = (x <<< n) &&& 0xFF := BitVec.and_allOnes.symm

/-- R79: a byte divided by 2^8 or more is 0. -/
theorem trunc8_div_two_pow (x : Byte) (n : Nat) : trunc8 (x.toNat / 2 ^ n) = if 8 ≤ n then 0 else x >>> n := by
  have hshift : trunc8 (x.toNat / 2 ^ n) = x >>> n := by
    simp [trunc8, ← Nat.shiftRight_eq_div_pow, ← BitVec.toNat_ushiftRight]
  split_ifs with h
  · exact hshift.trans (BitVec.ushiftRight_eq_zero h)
  · exact hshift

/-! ## What the F2RR instructions share (R70) -/

theorem length_of_f2rr {o : Opcode} (ho : o.format = .f2rr) : o.length = 3 := by rw [length_of_format, ho]

/-- An F2RR instruction always falls through. -/
theorem needsNextPc_of_f2rr {o : Opcode} (ho : o.format = .f2rr) (fl : Byte) : needsNextPc o fl = true := by
  cases o with
  | add | mul | mod | cmp | and | or | xor | shl | shr => rfl
  | halt | loadImmediate | printReg | not | push | pop | call | ret | jmp | jeq | jne => cases ho

theorem encode_of_f2rr {o : Opcode} (ho : o.format = .f2rr) (a b : Byte) : encode (o.instr a b) = [o.byte, a, b] := by
  rw [encode_instr, length_of_f2rr ho]; rfl

theorem regOperands_of_f2rr {o : Opcode} (ho : o.format = .f2rr) (a b : Byte) :
    (o.instr a b).regOperands = [a, b] := by simp [regOperands_instr, ho]

/-- The PC_OVERFLOW clause of an F2RR instruction other than MOD. -/
theorem faults_pcOverflow_of_f2rr {o : Opcode} (ho : o.format = .f2rr) (hm : o ≠ .mod) {a b : Byte} {s : State}
    (ha : a.toNat ≤ 7) (hb : b.toNat ≤ 7) (hpc : 0xFC < s.pc.toNat) :
    Faults s .pcOverflow 0 (exec (o.instr a b) s) := by
  have hover : Config.pcMax < s.pc.toNat + o.length := by
    rw [length_of_f2rr ho]; exact Nat.add_lt_add_right hpc 3
  exact exec_of_fault (faultCondition_over (instr_opcode o a b) hm (by simp [regOperands_of_f2rr ho, ha, hb])
    (needsNextPc_of_f2rr ho s.fl) hover)

/-- The template of R71, R72, R74 to R76, R78 and R79, for an instruction that completes as `aluBinary` with `f`, which
the spec writes as `g`. -/
theorem twoRegisterRule {o : Opcode} {f g : Byte → Byte → Byte} (ho : o.format = .f2rr) (hm : o ≠ .mod)
    (hc : ∀ a b s, Completes (o.instr a b) s = BinaryCompletes o f a b s) (hfg : ∀ x y, f x y = g x y) :
    TwoRegisterRule o.instr o.byte g := by
  obtain rfl : f = g := funext₂ hfg
  intro a b s
  refine ⟨encode_of_f2rr ho a b, fun ra rb ha hb hpc => ?_, badTwoRegisters (regOperands_of_f2rr ho a b) s,
    faults_pcOverflow_of_f2rr ho hm⟩
  have hlen := length_of_f2rr ho
  have hfits : s.pc.toNat + o.length ≤ Config.pcMax := by rw [hlen]; exact Nat.add_le_add_right hpc 3
  exact hlen ▸ writesRegister_of_fallsThrough hfits fun t ht => by rw [hc]; exact ⟨ra, rb, ha, hb, ht⟩

/-! ## The seven instructions of the template -/

/-- Settles O11: the template, and the two forms of the shift. -/
theorem shlShiftsLeftByAnyAmount : Obligations.ShlShiftsLeftByAnyAmount :=
  ⟨twoRegisterRule (o := .shl) rfl nofun (fun _ _ _ => rfl) fun _ _ => trunc8_eq_ofNat_mod _,
    fun x y => (trunc8_eq_ofNat_mod _).symm.trans (trunc8_mul_two_pow x y.toNat)⟩

/-- Settles O12: the template, and the two forms of the shift. -/
theorem shrShiftsRightByAnyAmount : Obligations.ShrShiftsRightByAnyAmount :=
  ⟨twoRegisterRule (o := .shr) rfl nofun (fun _ _ _ => rfl) fun _ _ => rfl, fun x y => trunc8_div_two_pow x y.toNat⟩

/-- Settles O4: the template, with the sum truncated. -/
theorem addWritesSumModulo256 : Obligations.AddWritesSumModulo256 :=
  twoRegisterRule (o := .add) rfl nofun (fun _ _ _ => rfl) fun _ _ => trunc8_eq_ofNat_mod _

/-- Settles O5: the template, with the full product truncated. -/
theorem mulWritesLowByteOfProduct : Obligations.MulWritesLowByteOfProduct :=
  twoRegisterRule (o := .mul) rfl nofun (fun _ _ _ => rfl) fun _ _ => trunc8_eq_ofNat_mod _

/-- Settles O7: the template; the operator acts bit by bit. -/
theorem andWritesBitwiseAnd : Obligations.AndWritesBitwiseAnd :=
  ⟨twoRegisterRule (o := .and) rfl nofun (fun _ _ _ => rfl) fun _ _ => rfl, fun _ _ _ => BitVec.getLsbD_and⟩

/-- Settles O8: the template; the operator acts bit by bit. -/
theorem orWritesBitwiseOr : Obligations.OrWritesBitwiseOr :=
  ⟨twoRegisterRule (o := .or) rfl nofun (fun _ _ _ => rfl) fun _ _ => rfl, fun _ _ _ => BitVec.getLsbD_or⟩

/-- Settles O9: the template; the operator acts bit by bit. -/
theorem xorWritesBitwiseXor : Obligations.XorWritesBitwiseXor :=
  ⟨twoRegisterRule (o := .xor) rfl nofun (fun _ _ _ => rfl) fun _ _ => rfl, fun _ _ _ => BitVec.getLsbD_xor⟩

/-! ## MOD, NOT and CMP -/

/-- Settles O6: the remainder, and the conditions of the faults, DIV_BY_ZERO at every pc. -/
theorem modWritesRemainderOrFaults : Obligations.ModWritesRemainderOrFaults := by
  intro a b s
  refine ⟨rfl, fun ra rb ha hb h0 hpc => ?_, badTwoRegisters rfl s, fun ra rb ha hb h0 => ?_,
    fun ra rb ha hb h0 hpc => ?_⟩
  · exact writesRegister_of_fallsThrough (o := .mod) (Nat.add_le_add_right hpc 3) fun t ht => ⟨ra, rb, ha, hb, h0, ht⟩
  · exact exec_of_fault (.inr (.inl ⟨rfl, rfl, a, b, rb, rfl, legal_of_eq ha, hb, h0⟩))
  · have hlegal : ∀ r ∈ (Instr.mod a b).regOperands, r.toNat ≤ 7 := by
      simp [Instr.regOperands, legal_of_eq ha, legal_of_eq hb]
    have hover : Config.pcMax < s.pc.toNat + Opcode.mod.length := Nat.add_lt_add_right hpc 3
    refine exec_of_fault (.inr (.inr ⟨rfl, rfl, hlegal, ?_, needsNextPc_of_f2rr (o := .mod) rfl s.fl, hover⟩))
    rintro _ _ q ⟨⟩ hq
    rwa [show q = rb from Fin.ext (hq.symm.trans hb)]

/-- Settles O10: the complement, the operand check and the overflow check. -/
theorem notWritesComplement : Obligations.NotWritesComplement := by
  intro a s
  refine ⟨rfl, fun ra ha hpc => ?_, badOneRegister rfl s, fun ha hpc => ?_⟩
  · rw [← aluNot_eq_ofNat]
    exact writesRegister_of_fallsThrough (o := .not) (Nat.add_le_add_right hpc 2) fun t ht => ⟨ra, ha, ht⟩
  · exact exec_of_fault (faultCondition_over (o := .not) rfl nofun (by simpa [Instr.regOperands] using ha) rfl
      (Nat.add_lt_add_right hpc 2))

/-- Settles O13: FL is `compareFlags` of the two registers, whose three branches are the statement's. -/
theorem cmpSetsExactlyOneFlag : Obligations.CmpSetsExactlyOneFlag := by
  intro a b s
  refine ⟨rfl, fun ra rb ha hb hpc => ?_, badTwoRegisters rfl s, faults_pcOverflow_of_f2rr (o := .cmp) rfl nofun⟩
  have hfall : FallsThroughTo .cmp s (s.setFl (compareFlags (s.reg ra) (s.reg rb))) _ :=
    ⟨Nat.add_le_add_right hpc 3, rfl⟩
  exact ⟨_, exec_of_completes (i := .cmp a b) ⟨ra, rb, ha, hb, hfall⟩, rfl, fun _ _ => rfl, hfall.pc, fun _ => rfl, rfl,
    rfl, rfl, rfl⟩

end Sys2Proof.Machine
end

section
/-! PROOFS. The statements of spec/42_stack.md. PUSH and POP each have one completed state, `exec_push` and `exec_pop`;
the register and memory rules of `pushByte` and `popByteTo` say what it holds. -/

namespace Sys2Proof.Machine

open Sys2Proof.Spec

/-! ## The completed states (R83, R84) -/

/-- What POP writes: `x[r]` after SP (R84). -/
def State.popByteTo (s : State) (r : RegIndex) : State := s.dropByte.setReg r s.topByte

theorem popByteTo_reg_same (s : State) (r : RegIndex) : (s.popByteTo r).reg r = s.readByte (s.reg 7) :=
  setReg_reg_same _ r _

theorem popByteTo_reg_seven (s : State) {r : RegIndex} (h : r ≠ 7) : (s.popByteTo r).reg 7 = s.reg 7 + 1 :=
  (setReg_reg_ne _ r 7 _ h.symm).trans (setReg_reg_same s 7 _)

theorem popByteTo_reg_ne (s : State) {r q : RegIndex} (h7 : q ≠ 7) (hr : q ≠ r) : (s.popByteTo r).reg q = s.reg q :=
  (setReg_reg_ne _ r q _ hr).trans (setReg_reg_ne s 7 q _ h7)

section

variable {a : Byte} {ra : RegIndex} {s : State} (ha : a.toNat = ra.val) (hpc : s.pc.toNat ≤ 0xFD)

include ha hpc

theorem exec_push : ∃ p : Byte, p.toNat = s.pc.toNat + 2 ∧
    exec (.push a) s = .next ((s.pushByte (s.reg ra)).setPc p) := by
  have hfall : FallsThroughTo .push s (s.pushByte (s.reg ra)) _ := ⟨Nat.add_le_add_right hpc 2, rfl⟩
  exact ⟨_, hfall.pc, exec_of_completes ⟨ra, ha, hfall⟩⟩

theorem exec_pop : ∃ p : Byte, p.toNat = s.pc.toNat + 2 ∧ exec (.pop a) s = .next ((s.popByteTo ra).setPc p) := by
  have hfall : FallsThroughTo .pop s (s.popByteTo ra) _ := ⟨Nat.add_le_add_right hpc 2, rfl⟩
  exact ⟨_, hfall.pc, exec_of_completes ⟨ra, ha, hfall⟩⟩

end

/-! ## PUSH and POP on their own -/

/-- The PC_OVERFLOW clause of an F1R instruction that needs `pc + 2`. -/
theorem faults_pcOverflow_of_f1r {o : Opcode} (ho : o.format = .f1r) {opA opB : Byte} {s : State}
    (hn : needsNextPc o s.fl = true) (hA : opA.toNat ≤ 7) (hpc : 0xFD < s.pc.toNat) :
    Faults s .pcOverflow 0 (exec (o.instr opA opB) s) := by
  have hm : o ≠ .mod := by rintro rfl; cases ho
  have hover : Config.pcMax < s.pc.toNat + o.length := by
    rw [length_of_format, ho]; exact Nat.add_lt_add_right hpc 2
  exact exec_of_fault (faultCondition_over (instr_opcode o opA opB) hm (by simp [regOperands_instr, ho, hA]) hn hover)

/-- Settles O14: the completed state of PUSH, the operand check and the overflow check. -/
theorem pushDecrementsSpThenStores : Obligations.PushDecrementsSpThenStores := by
  intro a s
  refine ⟨rfl, fun ra ha hpc => ?_, badOneRegister rfl s, faults_pcOverflow_of_f1r (o := .push) (opB := 0) rfl rfl⟩
  obtain ⟨p, hp, ht⟩ := exec_push ha hpc
  rw [← sub_one_eq]
  refine ⟨_, ht, pushByte_reg s (s.reg ra) 7, fun r hr => ?_, ?_, fun x hx => ?_, hp, rfl, rfl, rfl, rfl, rfl⟩
  · exact (pushByte_reg s (s.reg ra) r).trans (if_neg (by simpa using hr))
  · exact (pushByte_readByte s _ _).trans (if_pos rfl)
  · exact (pushByte_readByte s _ x).trans (if_neg hx)

/-- Settles O15: the completed state of POP, the operand check and the overflow check. -/
theorem popReadsThenIncrementsSp : Obligations.PopReadsThenIncrementsSp := by
  intro a s
  refine ⟨rfl, fun ra ha hpc => ?_, badOneRegister rfl s, faults_pcOverflow_of_f1r (o := .pop) (opB := 0) rfl rfl⟩
  obtain ⟨p, hp, ht⟩ := exec_pop ha hpc
  rw [← add_eq_ofNat]
  refine ⟨_, ht, popByteTo_reg_same s ra, popByteTo_reg_seven s, fun r hr => ?_, hp, rfl, fun _ => rfl, rfl, rfl, rfl,
    rfl⟩
  obtain ⟨h7, hra⟩ : r ≠ 7 ∧ r ≠ ra := by simpa using hr
  exact popByteTo_reg_ne s h7 hra

/-! ## PUSH, then POP (R85) -/

/-- Settles O53: POP finds SP one below where PUSH found it, and there the byte pushed. -/
theorem pushThenPopRoundTrips : Obligations.PushThenPopRoundTrips := by
  intro a b ra rb s u ha hb _ hrb hs hu
  obtain ⟨p, -, ht⟩ := exec_push ha hs
  obtain ⟨q, -, hv⟩ := exec_pop hb hu
  refine ⟨_, ht, fun hsp htop => ⟨_, hv, ?_⟩⟩
  simp only [setPc_reg, setPc_readByte, pushByte_reg, pushByte_readByte, if_true] at hsp htop
  refine ⟨(popByteTo_reg_same u rb).trans (hsp.symm ▸ htop), ?_, htop⟩
  calc (u.popByteTo rb).reg 7 = u.reg 7 + 1 := popByteTo_reg_seven u hrb
    _ = s.reg 7 := by rw [hsp, BitVec.sub_add_cancel]

end Sys2Proof.Machine
end

section
/-! PROOFS. The statements of spec/43_control.md. CALL and RETURN each have one completed state, `exec_call` and
`exec_ret`; JEQ and JNE share one meaning up to the value of bit E that branches, and so one proof,
`conditionalJumpRule`. -/

namespace Sys2Proof.Machine

open Sys2Proof.Spec

/-! ## CALL and RETURN (R87, R88, R92) -/

theorem exec_call {a : Byte} {ra : RegIndex} {s : State} (ha : a.toNat = ra.val) (hpc : s.pc.toNat ≤ 0xFD) :
    ∃ p : Byte, p.toNat = s.pc.toNat + 2 ∧ exec (.call a) s = .next ((s.pushByte p).setPc (s.reg ra)) := by
  have hfits : s.pc.toNat + Opcode.call.length ≤ Config.pcMax := Nat.add_le_add_right hpc 2
  exact ⟨_, nextPc_toNat (nextPc_some hfits), exec_of_completes ⟨ra, ha, hfits, rfl⟩⟩

theorem exec_ret (s : State) : exec .ret s = .next (s.dropByte.setPc s.topByte) := exec_of_completes (i := .ret) rfl

/-- Settles O16: the completed state of CALL, the operand check and the overflow check. -/
theorem callPushesReturnAddressAndJumps : Obligations.CallPushesReturnAddressAndJumps := by
  intro a s
  refine ⟨rfl, fun ra ha hpc => ?_, badOneRegister rfl s, faults_pcOverflow_of_f1r (o := .call) (opB := 0) rfl rfl⟩
  obtain ⟨p, hp, ht⟩ := exec_call ha hpc
  rw [← sub_one_eq]
  refine ⟨_, ht, rfl, pushByte_reg s p 7, fun r hr => ?_, ?_, fun x hx => ?_, rfl, rfl, rfl, rfl, rfl⟩
  · exact (pushByte_reg s p r).trans (if_neg (by simpa using hr))
  · exact ((pushByte_readByte s p _).trans (if_pos rfl)).symm ▸ hp
  · exact (pushByte_readByte s p x).trans (if_neg hx)

/-- Settles O17: the completed state of RETURN, at every pc. -/
theorem returnPopsThePc : Obligations.ReturnPopsThePc := by
  refine ⟨rfl, fun s => ?_⟩
  rw [← add_eq_ofNat]
  exact ⟨_, exec_ret s, rfl, setReg_reg_same s 7 _, fun r hr => setReg_reg_ne s 7 r _ (by simpa using hr), rfl,
    fun _ => rfl, rfl, rfl, rfl, rfl⟩

/-- Settles O54: RETURN finds SP one below where CALL found it, and there the return address. -/
theorem callThenReturnResumes : Obligations.CallThenReturnResumes := by
  intro a ra s u ha hpc
  obtain ⟨p, hp, ht⟩ := exec_call ha hpc
  refine ⟨_, ht, fun hsp htop => ?_⟩
  simp only [setPc_reg, setPc_readByte, pushByte_reg, pushByte_readByte, if_true] at hsp htop
  refine ⟨_, exec_ret u, ?_, ?_⟩
  · calc u.topByte.toNat = p.toNat := by rw [topByte_eq, hsp, htop]
      _ = s.pc.toNat + 2 := hp
  · calc (u.dropByte.setPc u.topByte).reg 7 = u.reg 7 + 1 := setReg_reg_same u 7 _
      _ = s.reg 7 := by rw [hsp, BitVec.sub_add_cancel]

/-! ## The jumps (R89, R90, R91) -/

/-- Settles O18: JMP completes wherever its operand is legal. -/
theorem jmpSetsPcToItsRegister : Obligations.JmpSetsPcToItsRegister :=
  fun _ s => ⟨rfl, fun ra ha => exec_of_completes ⟨ra, ha, rfl⟩, badOneRegister rfl s⟩

/-- The shape of JEQ and JNE: to `x[a]` where bit E of FL is `e`, else to the next instruction. -/
def ConditionalJumpCompletes (o : Opcode) (e : Bool) (a : Byte) (s t : State) : Prop :=
  ∃ ra : RegIndex, a.toNat = ra.val ∧
    ((equalBit s.fl = e ∧ t = s.setPc (s.reg ra)) ∨ (equalBit s.fl = !e ∧ FallsThroughTo o s s t))

/-- The template of R90 and R91: a branch where bit E of FL is `e`. -/
def ConditionalJumpRule (i : Byte → Instr) (opcode : Byte) (e : Bool) : Prop :=
  ∀ (a : Byte) (s : State),
    encode (i a) = [opcode, a] ∧
    (∀ ra : RegIndex, a.toNat = ra.val → s.fl.getLsbD 0 = e → exec (i a) s = .next (s.setPc (s.reg ra))) ∧
    (a.toNat ≤ 7 → s.fl.getLsbD 0 = !e → s.pc.toNat ≤ 0xFD →
      exec (i a) s = .next (s.setPc (trunc8 (s.pc.toNat + 2)))) ∧
    BadOneRegister (i a) a s ∧
    (a.toNat ≤ 7 → s.fl.getLsbD 0 = !e → 0xFD < s.pc.toNat → Faults s .pcOverflow 0 (exec (i a) s))

theorem conditionalJumpRule {o : Opcode} {e : Bool} (ho : o.format = .f1r)
    (hc : ∀ a b s, Completes (o.instr a b) s = ConditionalJumpCompletes o e a s)
    (hn : ∀ fl, equalBit fl = !e → needsNextPc o fl = true) : ConditionalJumpRule (o.instr · 0) o.byte e := by
  intro a s
  have hlen : o.length = 2 := by rw [length_of_format, ho]
  have hbad : BadOneRegister (o.instr a 0) a s := badOneRegister (more := []) (by simp [regOperands_instr, ho]) s
  have hexec : ∀ {t}, ConditionalJumpCompletes o e a s t → exec (o.instr a 0) s = .next t :=
    fun ht => exec_of_completes ((hc a 0 s).symm ▸ ht)
  refine ⟨by rw [encode_instr, hlen]; rfl, fun ra ha he => hexec ⟨ra, ha, .inl ⟨he, rfl⟩⟩, fun ha he hpc => ?_, hbad,
    fun ha he => faults_pcOverflow_of_f1r ho (hn s.fl he) ha⟩
  obtain ⟨ra, hra, -⟩ := regOperand_of_le ha
  have hfits : s.pc.toNat + o.length ≤ Config.pcMax := by rw [hlen]; exact Nat.add_le_add_right hpc 2
  exact hexec ⟨ra, hra.symm, .inr ⟨he, hfits, by rw [hlen]⟩⟩

/-- Settles O19: the template, with the branch where bit E is set. -/
theorem jeqBranchesWhenEqualIsSet : Obligations.JeqBranchesWhenEqualIsSet :=
  conditionalJumpRule (o := .jeq) (e := true) rfl (fun _ _ _ => rfl) fun _ h => by simp [needsNextPc, h]

/-- Settles O20: the template, with the branch where bit E is clear. -/
theorem jneBranchesWhenEqualIsClear : Obligations.JneBranchesWhenEqualIsClear :=
  conditionalJumpRule (o := .jne) (e := false) rfl (fun _ _ _ => rfl) fun _ h => by simp [needsNextPc, h]

/-- Settles O55: whichever value bit E has, one of the two rules branches and the other falls through. -/
theorem jeqAndJneTakeOppositePaths : Obligations.JeqAndJneTakeOppositePaths := by
  intro a ra s ha hpc
  obtain ⟨-, hjeqTaken, hjeqNext, -⟩ := jeqBranchesWhenEqualIsSet a s
  obtain ⟨-, hjneTaken, hjneNext, -⟩ := jneBranchesWhenEqualIsClear a s
  have hnext : (BitVec.ofNat 8 (s.pc.toNat + 2)).toNat = s.pc.toNat + 2 :=
    (trunc8_toNat _).trans (Nat.mod_eq_of_lt (by omega))
  cases he : s.fl.getLsbD 0 with
  | true => exact ⟨_, _, hjeqTaken ra ha he, hjneNext (legal_of_eq ha) he hpc, .inl ⟨rfl, hnext⟩⟩
  | false => exact ⟨_, _, hjeqNext (legal_of_eq ha) he hpc, hjneTaken ra ha he, .inr ⟨hnext, rfl⟩⟩

end Sys2Proof.Machine
end

section
/-! PROOFS. The statements of spec/60_exceptions.md. An instruction keeps the halt record or halts for a named reason
(`exec_next_record`), and R100's list names exactly the faults whose condition the decoded instruction meets
(`firstFault_eq_some_iff`). -/

namespace Sys2Proof.Machine

open Sys2Proof.Spec

/-- An instruction that does not keep the halt record only halts, being HALT or meeting a fault's condition (R93). -/
theorem exec_next_record {i : Instr} {s t : State} (h : exec i s = .next t) :
    SameRecord s t ∨ ∃ c info, t = s.halt c info ∧ ((i = .halt ∧ c = .halt ∧ info = 0) ∨ FaultCondition i s c info) := by
  obtain ⟨e, ha, rfl, -⟩ := exec_next_effect h
  rcases e.isHalt_or_sameRecord s with ⟨c, info, rfl⟩ | hrecord
  · exact .inr ⟨c, info, rfl, ha⟩
  · exact .inl hrecord

/-- R100's list for a recognized opcode: the fault it gives is the one whose condition the decoded instruction meets. -/
theorem firstFault_eq_some_iff {s : State} {o : Opcode} {c : HaltCause} {info : Byte}
    (ho : Opcode.ofByte (fetch s).1 = some o) :
    s.firstFault = some (c, info) ↔ FaultCondition (o.instr (fetch s).2.1 (fetch s).2.2) s c info := by
  refine ⟨fun h => ?_, firstFault_of_faultCondition ho⟩
  cases hf : (o.instr (fetch s).2.1 (fetch s).2.2).regOperands.find? (fun r => decide (7 < r.toNat)) with
  | some r =>
    cases h.symm.trans (firstFault_of_badRegister ho hf)
    exact .inl ⟨rfl, hf⟩
  | none =>
    have hlegal : ∀ r ∈ (o.instr (fetch s).2.1 (fetch s).2.2).regOperands, r.toNat ≤ 7 := by
      simpa using hf
    rw [firstFault_of_legal ho hlegal] at h
    split_ifs at h with hdiv hover
    · cases h
      obtain ⟨rfl, h0⟩ := hdiv
      obtain ⟨rb, hrb, h0⟩ := Option.map_eq_some_iff.1 h0
      exact .inr (.inl ⟨rfl, rfl, _, _, rb, rfl, hlegal _ (List.mem_cons_self ..), regOperand_eq_some.1 hrb, h0⟩)
    · cases h
      obtain ⟨hn, hlt⟩ := hover
      refine .inr (.inr ⟨rfl, rfl, hlegal, fun a b rb hi hb h0 => hdiv ?_, ?_, ?_⟩)
      · obtain rfl : o = .mod := (instr_opcode o _ _).symm.trans (congrArg Instr.opcode hi)
        obtain ⟨-, rfl⟩ : _ = a ∧ _ = b := Instr.mod.inj hi
        exact ⟨rfl, by rw [regOperand_eq_some.2 hb, Option.map_some, h0]⟩
      · rwa [instr_opcode]
      · rwa [instr_opcode]

/-- Settles O34: the two alternatives of `exec_next_record`, where every fault's cause is one of R22's faults. -/
theorem everyHaltIsPrecise : Obligations.EveryHaltIsPrecise := by
  intro i s t h
  rcases exec_next_record h with hrecord | ⟨c, info, rfl, hhalt⟩
  · exact .inl hrecord
  · exact .inr ⟨rfl, hhalt.symm.imp_left FaultCondition.isFault⟩

/-- Where R100's list gives a fault, the step is that fault. -/
theorem step_of_firstFault {s : State} {c : HaltCause} {info : Byte} (hrun : s.status = .running)
    (h : s.firstFault = some (c, info)) : step s = .next (s.halt c info) := by
  rcases step_cases s with ⟨hhalted, -⟩ | ⟨-, o, ho, hstep⟩ | ⟨-, ho, hstep⟩
  · exact nomatch hrun.symm.trans hhalted
  · exact hstep.trans (exec_of_fault ((firstFault_eq_some_iff ho).1 h))
  · cases h.symm.trans (firstFault_of_illegal ho)
    exact hstep

/-- Where R100's list gives none, the step keeps the halt record or is HALT's. -/
theorem step_record_of_no_firstFault {s t : State} (hrun : s.status = .running) (h : s.firstFault = none)
    (ht : step s = .next t) : SameRecord s t ∨ (t = s.halt .halt 0 ∧ (fetch s).1 = Opcode.byte .halt) := by
  rcases step_cases s with ⟨hhalted, -⟩ | ⟨-, o, ho, hstep⟩ | ⟨-, ho, -⟩
  · exact nomatch hrun.symm.trans hhalted
  · rcases exec_next_record (hstep.symm.trans ht) with hrecord | ⟨c, info, rfl, ⟨hi, rfl, rfl⟩ | hfault⟩
    · exact .inl hrecord
    · obtain rfl : o = .halt := (instr_opcode o _ _).symm.trans (congrArg Instr.opcode hi)
      exact .inr ⟨rfl, (byte_of_ofByte ho).symm⟩
    · exact nomatch h.symm.trans (firstFault_of_faultCondition ho hfault)
  · exact nomatch h.symm.trans (firstFault_of_illegal ho)

/-- Settles O35: a step in a state with a first fault, and one in a state without. -/
theorem stepRaisesTheFirstApplicableFault : Obligations.StepRaisesTheFirstApplicableFault := by
  intro s hrun
  refine ⟨fun c info => step_of_firstFault hrun, fun hnone => ?_⟩
  obtain ⟨t, ht⟩ := step_next s
  refine ⟨t, ht, (step_record_of_no_firstFault hrun hnone ht).imp_right ?_⟩
  rintro ⟨rfl, hbyte⟩
  exact ⟨rfl, rfl, rfl, hbyte⟩

end Sys2Proof.Machine
end

section
/-! PROOFS. The statements of spec/70_reset_and_hazards.md: a step always answers a next state, and a loaded program
starts at its first instruction. -/

namespace Sys2Proof.Machine

open Sys2Proof.Spec

/-- Settles O36: a HALTED core, a recognized opcode and an unrecognized one each have a next state (`step_next`). -/
theorem everyStepHasANextState : Obligations.EveryStepHasANextState := step_next

/-- R114: the image holds the program's byte `k` at address `k`, for every `k` that is an address. -/
theorem imageOfProgram_ofNat {program : List Byte} {k : Nat} (hk : k < program.length) (haddr : k < 256) :
    imageOfProgram program (BitVec.ofNat 8 k) = program[k] := by
  rw [imageOfProgram, BitVec.toNat_ofNat, Nat.mod_eq_of_lt haddr, List.getD_eq_getElem _ _ hk]

/-- A loaded program's byte `k` is read at address `k` after reset. -/
theorem resetWith_imageOfProgram_readByte {program : List Byte} {k : Nat} (hk : k < program.length)
    (haddr : k < 256) :
    (State.resetWith (imageOfProgram program)).readByte (BitVec.ofNat 8 k) = program[k] :=
  (read_ofImage ..).trans (imageOfProgram_ofNat hk haddr)

/-- Settles O51: reset leaves pc at 0, where the image has the encoding's bytes, at most three of them. -/
theorem loadedProgramStartsAtItsFirstInstruction : Obligations.LoadedProgramStartsAtItsFirstInstruction := by
  intro i rest
  refine step_of_encoded_at_pc rfl fun k hk => ?_
  have haddr : k < 256 := hk.trans_le ((encode_length i).trans_le ((length_le_three _).trans (by decide)))
  have hloaded : k < (encode i ++ rest).length := hk.trans_le (List.length_append ▸ Nat.le_add_right ..)
  calc (State.resetWith (imageOfProgram (encode i ++ rest))).readByte (0 + BitVec.ofNat 8 k)
      = (State.resetWith (imageOfProgram (encode i ++ rest))).readByte (BitVec.ofNat 8 k) :=
        congrArg _ (BitVec.zero_add _)
    _ = (encode i ++ rest)[k] := resetWith_imageOfProgram_readByte hloaded haddr
    _ = (encode i)[k] := List.getElem_append_left hk

end Sys2Proof.Machine
end
